-- ==== Sys2Proof/Word.lean ====
section
/-! DEFINITION. The types of the values the core carries: bits, bytes, words of four bytes and 128-bit blocks
(spec/00_scope.md R2, R3, R4, R6). Byte order is decided in Machine/Operands.lean. -/

namespace Sys2Proof

/-- One bit of a port, a flag or a select input. -/
abbrev Bit := BitVec 1

/-- A byte, read as a polynomial over GF(2) whose bit 7 is the coefficient of x^7 (R3). -/
abbrev Byte := BitVec 8

/-- A 128-bit block, key or round key: sixteen bytes B[0] .. B[15] (R4). -/
abbrev Block := BitVec 128

/-- A word: four bytes, `b0` its first byte (R6). -/
structure Word where
  b0 : Byte
  b1 : Byte
  b2 : Byte
  b3 : Byte
deriving DecidableEq, Repr

/-- The bytes of two words added in GF(2^8), byte by byte (R3). -/
def Word.xor (v w : Word) : Word := ⟨v.b0 ^^^ w.b0, v.b1 ^^^ w.b1, v.b2 ^^^ w.b2, v.b3 ^^^ w.b3⟩

end Sys2Proof
end

