-- ==== Sys2Proof/Machine/Operands.lean ====
section
/-! DEFINITION. Operand assembly (spec/30_encoding.md R40): the bytes and words of a 128-bit block and back, which is where
the byte order of the buses and registers is decided (spec/20_memory.md R25, R26, R27; spec/00_scope.md R5, R6). -/

namespace Sys2Proof.Machine

/-- Byte `n` of a block: bits [127-8n : 120-8n] (R25, R27). Bit `k` of it is bit 120-8n+k of the block (R26). -/
def byteOf (b : Block) (n : Nat) : Byte := b.extractLsb' (120 - 8 * n) 8

/-- The block whose byte `n` is `f n`, byte 0 in the most significant byte (R25). -/
def blockOf (f : Nat → Byte) : Block :=
  f 0 ++ f 1 ++ f 2 ++ f 3 ++ f 4 ++ f 5 ++ f 6 ++ f 7 ++
    f 8 ++ f 9 ++ f 10 ++ f 11 ++ f 12 ++ f 13 ++ f 14 ++ f 15

/-- Word `j` of a block: bytes 4j .. 4j+3, `B[4j]` first (R6, R27). -/
def wordOf (b : Block) (j : Nat) : Word :=
  ⟨byteOf b (4 * j), byteOf b (4 * j + 1), byteOf b (4 * j + 2), byteOf b (4 * j + 3)⟩

/-- The 32 bits of a word, its first byte the most significant (R27). -/
def wordBits (w : Word) : BitVec 32 := w.b0 ++ w.b1 ++ w.b2 ++ w.b3

/-- The block with words 0..3 (R6, R27). -/
def blockOfWords (w0 w1 w2 w3 : Word) : Block :=
  wordBits w0 ++ wordBits w1 ++ wordBits w2 ++ wordBits w3

/-- The index in the block of the byte at row `r` and column `c` of the grid: s[r,c] = B[r + 4c] (R5). -/
def gridIndex (r c : Nat) : Nat := r + 4 * c

/-- The sixteen bytes of a block, byte 0 first. -/
def blockBytes (b : Block) : List Byte := (List.range 16).map (byteOf b)

/-- The block that a list of bytes begins with, and the rest of the list; nothing if it has fewer than sixteen. -/
def takeBlock : List Byte → Option (Block × List Byte)
  | a0 :: a1 :: a2 :: a3 :: a4 :: a5 :: a6 :: a7 :: a8 :: a9 :: a10 :: a11 :: a12 :: a13 :: a14 :: a15 :: rest =>
    some (a0 ++ a1 ++ a2 ++ a3 ++ a4 ++ a5 ++ a6 ++ a7 ++ a8 ++ a9 ++ a10 ++ a11 ++ a12 ++ a13 ++ a14 ++ a15, rest)
  | _ => none

end Sys2Proof.Machine
end

