-- ==== Sys2Proof/Syntax.lean ====
section
/-! DEFINITION. The operations of the core: one constructor for each row of spec/opcode_table.json, and the four kinds of
selection point that select them (spec/30_encoding.md). -/

namespace Sys2Proof

/-- Where an operation is selected. The bit vectors of two points overlap as bare numbers, so a decoder is told the
point (R35, R37, R38, R39). -/
inductive Point where
  /-- Format CMD: the host command `{rst, start, mode}` with `key_in` and `din` (R35). -/
  | cmd
  /-- Format SEL at `subyte_stage` (R37). -/
  | subyte
  /-- Format SEL at `shiftrows_stage` (R37). -/
  | shiftrows
  /-- Format SEL at `mixcolumns_stage` (R37). -/
  | mixcolumns
  /-- Format SEL at `addroundkey_stage`, zero bits wide (R37). -/
  | addroundkey
  /-- Format KX: the round index of the `aes_key_expand` step unit (R38). -/
  | kx
  /-- Format RS: `{mode_r, cnt}` of the round datapath (R39). -/
  | rs
deriving DecidableEq, Repr

/-- The eighteen operations. Operands that stand in registers (`s_r`, `rk`) are read there; operands that arrive at a port
are the constructor's arguments (R40). -/
inductive Instr where
  /-- RST: synchronous reset, CMD `1--` (R97). -/
  | rst
  /-- NOP: no command, CMD `00-` (R78). -/
  | nop
  /-- ENC: present a key and a plaintext, CMD `010` (R79). -/
  | enc (keyIn din : Block)
  /-- DEC: present a key and a ciphertext, CMD `011` (R80). -/
  | dec (keyIn din : Block)
  /-- SUBBYTES of the block at `d_in` (R51). -/
  | subBytes (dIn : Block)
  /-- INVSUBBYTES of the block at `d_in` (R52). -/
  | invSubBytes (dIn : Block)
  /-- SHIFTROWS of the block at `d_in` (R54). -/
  | shiftRows (dIn : Block)
  /-- INVSHIFTROWS of the block at `d_in` (R55). -/
  | invShiftRows (dIn : Block)
  /-- MIXCOLUMNS of the block at `d_in` (R57). -/
  | mixColumns (dIn : Block)
  /-- INVMIXCOLUMNS of the block at `d_in` (R58). -/
  | invMixColumns (dIn : Block)
  /-- ADDROUNDKEY of the block at `d_in` with the key at `rk_in` (R59). -/
  | addRoundKey (dIn rkIn : Block)
  /-- KEYSTEP for round `i`, 1..10; the previous round key is `rk[i-1]` (R64, R82). -/
  | keyStep (i : BitVec 4)
  /-- ENC_INIT (R70). -/
  | encInit
  /-- ENC_ROUND for round `k`, 1..9 (R71). -/
  | encRound (k : BitVec 4)
  /-- ENC_FINAL (R72). -/
  | encFinal
  /-- DEC_INIT (R73). -/
  | decInit
  /-- DEC_ROUND for step `k`, 1..9 (R74). -/
  | decRound (k : BitVec 4)
  /-- DEC_FINAL (R75). -/
  | decFinal
deriving DecidableEq, Repr

/-- The point that selects an operation. -/
def Instr.point : Instr → Point
  | .rst | .nop | .enc _ _ | .dec _ _ => .cmd
  | .subBytes _ | .invSubBytes _ => .subyte
  | .shiftRows _ | .invShiftRows _ => .shiftrows
  | .mixColumns _ | .invMixColumns _ => .mixcolumns
  | .addRoundKey _ _ => .addroundkey
  | .keyStep _ => .kx
  | .encInit | .encRound _ | .encFinal | .decInit | .decRound _ | .decFinal => .rs

end Sys2Proof
end

