-- ==== Sys2Proof/WellFormed.lean ====
section
/-! DEFINITION. Which operations have an encoding: the round index of KEYSTEP, ENC_ROUND and DEC_ROUND lies in its range
(spec/30_encoding.md R38, R39). -/

namespace Sys2Proof

/-- A KX index that selects KEYSTEP: 1..10 (R38). -/
def keyIndexOk (i : BitVec 4) : Bool := 1 ≤ i && i ≤ 10

/-- An RS count that selects a middle round: 1..9 (R39). -/
def middleRoundOk (k : BitVec 4) : Bool := 1 ≤ k && k ≤ 9

/-- An operation that some vector at its selection point selects. -/
def Instr.wf : Instr → Bool
  | .keyStep i => keyIndexOk i
  | .encRound k => middleRoundOk k
  | .decRound k => middleRoundOk k
  | .rst | .nop | .enc _ _ | .dec _ _
  | .subBytes _ | .invSubBytes _ | .shiftRows _ | .invShiftRows _
  | .mixColumns _ | .invMixColumns _ | .addRoundKey _ _
  | .encInit | .encFinal | .decInit | .decFinal => true

end Sys2Proof
end

