-- ==== Sys2Proof/Decode.lean ====
section
/-! DEFINITION. Decoding and encoding (spec/30_encoding.md). First the decoders of the four formats on the bits of their
selection points; then the decoder and the encoder on bytes. The core has no instruction memory: the byte form (control
byte, then operand bytes) is the model's own (log entry 7). -/

namespace Sys2Proof

open Sys2Proof.Machine (blockBytes takeBlock)

/-- Format CMD, the rows of R36 in priority order; they cover all eight values. -/
def decodeCmd (cmd : BitVec 3) (keyIn din : Block) : Instr :=
  if cmd &&& 0b100 = 0b100 then .rst
  else if cmd &&& 0b110 = 0b000 then .nop
  else if cmd &&& 0b111 = 0b010 then .enc keyIn din
  else .dec keyIn din

/-- Format SEL at `subyte_stage`: `inv` selects the inverse (R37). -/
def decodeSubyte (inv : Bit) (dIn : Block) : Instr := if inv = 0 then .subBytes dIn else .invSubBytes dIn

/-- Format SEL at `shiftrows_stage` (R37). -/
def decodeShiftrows (inv : Bit) (dIn : Block) : Instr := if inv = 0 then .shiftRows dIn else .invShiftRows dIn

/-- Format SEL at `mixcolumns_stage` (R37). -/
def decodeMixcolumns (inv : Bit) (dIn : Block) : Instr := if inv = 0 then .mixColumns dIn else .invMixColumns dIn

/-- Format KX: 1..10 select KEYSTEP; 0 and 11..15 are reserved (R38). -/
def decodeKx (i : BitVec 4) : Option Instr := if keyIndexOk i then some (.keyStep i) else none

/-- Format RS, `rs = {mode_r, cnt}` with `rs[4] = mode_r`; `cnt` 11..15 is reserved (R39). -/
def decodeRs (rs : BitVec 5) : Option Instr :=
  let cnt := rs.extractLsb' 0 4
  if rs.extractLsb' 4 1 = 0#1 then
    if cnt = 0 then some .encInit
    else if middleRoundOk cnt then some (.encRound cnt)
    else if cnt = 10 then some .encFinal
    else none
  else
    if cnt = 0 then some .decInit
    else if middleRoundOk cnt then some (.decRound cnt)
    else if cnt = 10 then some .decFinal
    else none

/-- Why bytes are no operation of a selection point. -/
inductive DecodeError where
  /-- The bytes end before the control byte or an operand is complete. -/
  | truncated
  /-- The control byte has a bit set above the width of the format. -/
  | beyondFormat
  /-- A reserved KX index: 0 or 11..15 (R38, R41). -/
  | reservedKx
  /-- A reserved RS vector: `cnt` in 11..15 (R39, R41). -/
  | reservedRs
deriving DecidableEq, Repr

/-- What the byte decoder answers: an operation and the bytes after it, or a rejection by name. -/
inductive Decoded where
  | ok (i : Instr) (rest : List Byte)
  | rejected (e : DecodeError)
deriving DecidableEq, Repr

/-- An operation read without operand bytes of its own. -/
def decodedOr (i : Option Instr) (e : DecodeError) (rest : List Byte) : Decoded :=
  match i with
  | some i => .ok i rest
  | none => .rejected e

/-- An operation with one block operand. -/
def decodeOneBlock (mk : Block → Instr) (bs : List Byte) : Decoded :=
  match takeBlock bs with
  | some (a, rest) => .ok (mk a) rest
  | none => .rejected .truncated

/-- An operation with two block operands. -/
def decodeTwoBlocks (mk : Block → Block → Instr) (bs : List Byte) : Decoded :=
  match takeBlock bs with
  | some (a, rest) => decodeOneBlock (mk a) rest
  | none => .rejected .truncated

/-- The control byte of a format `w` bits wide, and what `f` makes of its bits and the bytes after it. -/
def decodeControl (w : Nat) (f : BitVec w → List Byte → Decoded) : List Byte → Decoded
  | [] => .rejected .truncated
  | c :: rest => if c.toNat < 2 ^ w then f (c.setWidth w) rest else .rejected .beyondFormat

/-- The operation that bytes select at a point: a control byte holding the format's bits (none at
`addroundkey_stage`), then the operand blocks, byte 0 of each first. -/
def decode : Point → List Byte → Decoded
  | .cmd => decodeControl 3 fun cmd => decodeTwoBlocks (decodeCmd cmd)
  | .subyte => decodeControl 1 fun inv => decodeOneBlock (decodeSubyte inv)
  | .shiftrows => decodeControl 1 fun inv => decodeOneBlock (decodeShiftrows inv)
  | .mixcolumns => decodeControl 1 fun inv => decodeOneBlock (decodeMixcolumns inv)
  | .addroundkey => decodeTwoBlocks .addRoundKey
  | .kx => decodeControl 4 fun i => decodedOr (decodeKx i) .reservedKx
  | .rs => decodeControl 5 fun rs => decodedOr (decodeRs rs) .reservedRs

/-- Two blocks of operand bytes. -/
def twoBlocks (a b : Block) : List Byte := blockBytes a ++ blockBytes b

/-- The bytes of an operation at its point, from the tables of R36, R37, R38, R39. Bits and operands that the spec calls
ignored (R36, R42) are written 0. -/
def encode : Instr → List Byte
  | .rst => 0b100 :: twoBlocks 0 0
  | .nop => 0b000 :: twoBlocks 0 0
  | .enc keyIn din => 0b010 :: twoBlocks keyIn din
  | .dec keyIn din => 0b011 :: twoBlocks keyIn din
  | .subBytes d => 0 :: blockBytes d
  | .invSubBytes d => 1 :: blockBytes d
  | .shiftRows d => 0 :: blockBytes d
  | .invShiftRows d => 1 :: blockBytes d
  | .mixColumns d => 0 :: blockBytes d
  | .invMixColumns d => 1 :: blockBytes d
  | .addRoundKey d k => twoBlocks d k
  | .keyStep i => [0#4 ++ i]
  | .encInit => [0b00000]
  | .encRound k => [0b0000#4 ++ k]
  | .encFinal => [0b01010]
  | .decInit => [0b10000]
  | .decRound k => [0b0001#4 ++ k]
  | .decFinal => [0b11010]

/-- The selection point at which a bare number of the opcode table is read (log entry 6). The formats overlap: an empty
row is `addroundkey_stage`, a number of at most three bits a CMD vector, of four or five bits an RS vector. -/
def tablePoint (nbits w : Nat) : Option Point :=
  if nbits = 0 then some .addroundkey
  else if w < 8 then some .cmd
  else if w < 32 then some .rs
  else none

/-- The bytes of a bare number of the opcode table at a point, its operand words zero. -/
def tableBytes (p : Point) (w : Nat) : List Byte :=
  match p with
  | .addroundkey => List.replicate 32 0
  | .cmd | .subyte | .shiftrows | .mixcolumns | .kx | .rs => BitVec.ofNat 8 w :: List.replicate 32 0

/-- The operation the decoder answers, if it answers one. -/
def Decoded.instr? : Decoded → Option Instr
  | .ok i _ => some i
  | .rejected _ => none

/-- The operation the decoder reads from a bare number of the opcode table, operand words zero (log entry 6). -/
def decodeTableWord (nbits w : Nat) : Option Instr :=
  (tablePoint nbits w).bind fun p => (decode p (tableBytes p w)).instr?

end Sys2Proof
end

