-- ==== Sys2Proof/Config.lean ====
section
/-! DEFINITION. What the build fixes (spec/00_scope.md R1) and the free values: what the host drives on the input ports
in a step for which the state names no input. -/

namespace Sys2Proof.Config

/-- The number of rounds (R1). -/
abbrev rounds : Nat := 10

/-- The number of round keys, indexed 0..10 (R1). -/
abbrev roundKeys : Nat := 11

/-- Steps from the accept step to the first state with `done = 1`, the accept step counted (R1, R105). -/
abbrev latencySteps : Nat := 22

/-- Free value: `rst` as the host drives it in its `n`-th unscripted step. It has no body, so nothing can be proved of
its value (log entry 4; safe). -/
opaque hostRst (n : Nat) : Bit

/-- Free value: `start` in the host's `n`-th unscripted step (log entry 4; safe). -/
opaque hostStart (n : Nat) : Bit

/-- Free value: `mode` in the host's `n`-th unscripted step (log entry 4; safe). -/
opaque hostMode (n : Nat) : Bit

/-- Free value: `key_in` in the host's `n`-th unscripted step (log entry 4; safe). -/
opaque hostKeyIn (n : Nat) : Block

/-- Free value: `din` in the host's `n`-th unscripted step (log entry 4; safe). -/
opaque hostDin (n : Nat) : Block

end Sys2Proof.Config
end

