-- ==== Sys2Proof/Machine/State.lean ====
section
/-! DEFINITION. The state of the core as plain data (spec/10_state.md), the reasons a step can stop, and the state after
reset. -/

namespace Sys2Proof.Machine

/-- The sequencer phase, two bits (R11); every two-bit value has a name, the reserved encoding `11` too. -/
inductive Phase where
  /-- `00`: no operation in progress. -/
  | idle
  /-- `01`: key expansion in progress. -/
  | kexp
  /-- `10`: the round sequence is in progress. -/
  | rnd
  /-- `11`: reserved, unreachable from reset. -/
  | reserved
deriving DecidableEq, Repr

/-- What the host drives on the input ports in one step (R9). -/
structure HostInputs where
  rst : Bit
  start : Bit
  mode : Bit
  keyIn : Block
  din : Block
deriving DecidableEq, Repr

/-- The ports of `subyte_stage`, `shiftrows_stage` or `mixcolumns_stage` (R50, R53, R56): the block of the unit's last
operation, the select input, which the core ties to `mode_r` (R37), and the unit's answer to them (log entry 2). -/
structure StagePorts where
  dIn : Block
  inv : Bit
  dOut : Block
deriving DecidableEq, Repr

/-- The ports of `addroundkey_stage` at its last operation (R59). -/
structure AddRoundKeyPorts where
  dIn : Block
  rkIn : Block
  dOut : Block
deriving DecidableEq, Repr

/-- The ports of the `aes_key_expand` step unit at its last operation (R61). -/
structure KeyExpandPorts where
  prev : Block
  i : BitVec 4
  next : Block
deriving DecidableEq, Repr

/-- The state of the core and of what stands at its ports. -/
structure State where
  /-- The sequencer phase (R11). -/
  phase : Phase
  /-- The sequence counter (R12). -/
  cnt : BitVec 4
  /-- The mode latched at accept: 0 encrypt, 1 decrypt (R13). -/
  modeR : Bit
  /-- The state register: the working block (R14). -/
  sR : Block
  /-- The round key store `rk[0..10]` (R15). -/
  rk : Vector Block Config.roundKeys
  /-- The completion flag (R16). -/
  doneR : Bit
  /-- The ports of `subyte_stage` (R50; log entry 2). -/
  subyte : StagePorts
  /-- The ports of `shiftrows_stage` (R53; log entry 2). -/
  shiftrows : StagePorts
  /-- The ports of `mixcolumns_stage` (R56; log entry 2). -/
  mixcolumns : StagePorts
  /-- The ports of `addroundkey_stage` (R59; log entry 2). -/
  addroundkey : AddRoundKeyPorts
  /-- The ports of the `aes_key_expand` step unit (R61; log entry 2). -/
  keyExpand : KeyExpandPorts
  /-- The input ports, as the next step samples them (R9; log entry 3). -/
  inputs : HostInputs
  /-- What the host will present in the steps after that, oldest first (the model's own field; log entry 4). -/
  script : List HostInputs
  /-- How many host inputs were drawn as free values (the model's own field; log entry 4). -/
  drawn : Nat
deriving DecidableEq, Repr

/-- Why the machine stops. -/
inductive Fault where
  /-- UnreachableControlState(phase, cnt): a reserved control encoding (R90). Raised by NOP, ENC and DEC in a reserved
  control state, by KEYSTEP for a reserved KX index and by ENC_ROUND and DEC_ROUND outside 1..9. Safe: the spec does not say
  what the hardware does there. -/
  | unreachableControlState (phase : Phase) (cnt : BitVec 4)
deriving DecidableEq, Repr

/-- Why an operation has no meaning. -/
inductive Refusal where
  /-- The operation has no meaning in the model yet: raised only by an arm of `exec` that rejects by name. Safe. -/
  | notModelled (mnemonic : String)
deriving DecidableEq, Repr

/-- The outcome of an operation or a step. -/
abbrev Result := Host.Outcome State Fault Refusal

/-- The NOP command with zero operands: what stands at the input ports at reset (log entry 3). -/
def HostInputs.quiet : HostInputs := { rst := 0, start := 0, mode := 0, keyIn := 0, din := 0 }

/-- The state after a reset step (R22, R97, R99): `phase`, `cnt` and `done_r` as the spec says; the registers to which it
gives no value hold 0 (log entry 1); the unit ports are a unit's answer to zero inputs (log entry 2). -/
def State.reset : State where
  phase := .idle
  cnt := 0
  modeR := 0
  sR := 0
  rk := Vector.replicate Config.roundKeys 0
  doneR := 0
  subyte := { dIn := 0, inv := 0, dOut := 0x63636363636363636363636363636363 }
  shiftrows := { dIn := 0, inv := 0, dOut := 0 }
  mixcolumns := { dIn := 0, inv := 0, dOut := 0 }
  addroundkey := { dIn := 0, rkIn := 0, dOut := 0 }
  keyExpand := { prev := 0, i := 0, next := 0 }
  inputs := HostInputs.quiet
  script := []
  drawn := 0

end Sys2Proof.Machine
end

