-- ==== Sys2Proof/Machine/Flags.lean ====
section
/-! DEFINITION. The outputs of the core, functions of the state alone (spec/10_state.md R10, R18), and the bit encoding of
the phase (R11). -/

namespace Sys2Proof.Machine

/-- The two-bit encoding of a phase (R11). -/
def phaseBits : Phase → BitVec 2
  | .idle => 0b00
  | .kexp => 0b01
  | .rnd => 0b10
  | .reserved => 0b11

/-- `busy = (phase != IDLE)` (R10). -/
def State.busy (s : State) : Bit := if s.phase = .idle then 0 else 1

/-- `done = done_r` (R10). -/
def State.done (s : State) : Bit := s.doneR

/-- `dout`: `s_r` while `done = 1`; while `done = 0` the output has no value (R10, U1; log entry 11). -/
def State.dout (s : State) : Option Block := if s.doneR = 1 then some s.sR else none

end Sys2Proof.Machine
end

