-- ==== Sys2Proof/Machine/KeySchedule.lean ====
section
/-! DEFINITION. The key schedule as functions (spec/42_key_expand.md R61-R66). -/

namespace Sys2Proof.Machine

/-- RotWord: left by one byte (R62). -/
def rotWord (w : Word) : Word := ⟨w.b1, w.b2, w.b3, w.b0⟩

/-- SubWord: every byte through `SBOX` (R63). -/
def subWord (w : Word) : Word := ⟨sbox w.b0, sbox w.b1, sbox w.b2, sbox w.b3⟩

/-- The round key after `p`, with round constant `c` on the first byte only; the words run in series (R64). -/
def nextRoundKey (p : Block) (c : Byte) : Block :=
  let t := subWord (rotWord (wordOf p 3))
  let n0 := Word.xor ⟨t.b0 ^^^ c, t.b1, t.b2, t.b3⟩ (wordOf p 0)
  let n1 := n0.xor (wordOf p 1)
  let n2 := n1.xor (wordOf p 2)
  let n3 := n2.xor (wordOf p 3)
  blockOfWords n0 n1 n2 n3

/-- KeyStep(P, i) for `i` in 1..10 (R64); no value for a reserved index (R61). -/
def keyStep (p : Block) (i : BitVec 4) : Option Block := (rcon i).map (nextRoundKey p)

/-- ExpandKey(K): `RK[0] = K` and `RK[i] = KeyStep(RK[i-1], i)` for `i` in 1..10; entry `i - 1` of the ROM is `RCON[i]`
(R65). -/
def expandKey (k : Block) : Vector Block Config.roundKeys :=
  let k1 := nextRoundKey k rconTable[0]
  let k2 := nextRoundKey k1 rconTable[1]
  let k3 := nextRoundKey k2 rconTable[2]
  let k4 := nextRoundKey k3 rconTable[3]
  let k5 := nextRoundKey k4 rconTable[4]
  let k6 := nextRoundKey k5 rconTable[5]
  let k7 := nextRoundKey k6 rconTable[6]
  let k8 := nextRoundKey k7 rconTable[7]
  let k9 := nextRoundKey k8 rconTable[8]
  let k10 := nextRoundKey k9 rconTable[9]
  #v[k, k1, k2, k3, k4, k5, k6, k7, k8, k9, k10]

end Sys2Proof.Machine
end

