-- ==== Sys2Proof/Machine/Stages.lean ====
section
/-! DEFINITION. The four round stages as functions on blocks (spec/41_round_stages.md R50-R59). -/

namespace Sys2Proof.Machine

/-- SubBytes: every byte through `SBOX` (R51). -/
def subBytes (b : Block) : Block := blockOf fun n => sbox (byteOf b n)

/-- InvSubBytes: every byte through `INV_SBOX` (R52). -/
def invSubBytes (b : Block) : Block := blockOf fun n => invSbox (byteOf b n)

/-- ShiftRows: s'[r,c] = s[r, (c + r) mod 4], where byte n is row n mod 4, column n div 4 (R54, R5). -/
def shiftRows (b : Block) : Block :=
  blockOf fun n => byteOf b (gridIndex (n % 4) ((n / 4 + n % 4) % 4))

/-- InvShiftRows: s'[r,c] = s[r, (c - r) mod 4] (R55); 4 is added before the subtraction of naturals. -/
def invShiftRows (b : Block) : Block :=
  blockOf fun n => byteOf b (gridIndex (n % 4) ((n / 4 + 4 - n % 4) % 4))

/-- MixWord, every right-hand side on the original bytes (R57). -/
def mixWord (w : Word) : Word :=
  let t := w.b0 ^^^ w.b1 ^^^ w.b2 ^^^ w.b3
  ⟨w.b0 ^^^ t ^^^ xtime (w.b0 ^^^ w.b1), w.b1 ^^^ t ^^^ xtime (w.b1 ^^^ w.b2),
   w.b2 ^^^ t ^^^ xtime (w.b2 ^^^ w.b3), w.b3 ^^^ t ^^^ xtime (w.b3 ^^^ w.b0)⟩

/-- InvMixWord: the correction terms `u` and `v`, then MixWord (R58). -/
def invMixWord (w : Word) : Word :=
  let u := xtime (xtime (w.b0 ^^^ w.b2))
  let v := xtime (xtime (w.b1 ^^^ w.b3))
  mixWord ⟨w.b0 ^^^ u, w.b1 ^^^ v, w.b2 ^^^ u, w.b3 ^^^ v⟩

/-- A function on words applied to each of the four columns (R56). -/
def mapWords (f : Word → Word) (b : Block) : Block :=
  blockOfWords (f (wordOf b 0)) (f (wordOf b 1)) (f (wordOf b 2)) (f (wordOf b 3))

/-- MixColumns (R57). -/
def mixColumns (b : Block) : Block := mapWords mixWord b

/-- InvMixColumns (R58). -/
def invMixColumns (b : Block) : Block := mapWords invMixWord b

/-- AddRoundKey: `d_out = d_in ^ rk_in` (R59). -/
def addRoundKey (b k : Block) : Block := b ^^^ k

/-- The output of `subyte_stage` (R50). -/
def subyteStage (inv : Bit) (d : Block) : Block := if inv = 0 then subBytes d else invSubBytes d

/-- The output of `shiftrows_stage` (R53). -/
def shiftrowsStage (inv : Bit) (d : Block) : Block := if inv = 0 then shiftRows d else invShiftRows d

/-- The output of `mixcolumns_stage` (R56). -/
def mixcolumnsStage (inv : Bit) (d : Block) : Block := if inv = 0 then mixColumns d else invMixColumns d

end Sys2Proof.Machine
end

