-- ==== Sys2Proof/Machine/Ops.lean ====
section
/-! DEFINITION. The named operations on the state: raising the one fault (the core has no exception entry, R87, R92),
sampling the inputs, the writes of each step rule, reading and writing the key store, driving the units, and the host's
next input. -/

namespace Sys2Proof.Machine

/-- The one fault of the model, for the control encoding found (R90). -/
def unreachableControl (phase : Phase) (cnt : BitVec 4) : Result := .fault (.unreachableControlState phase cnt)

/-- `f` of the next state; a fault or a refusal stays as it is. -/
def mapNext (f : State → State) : Result → Result
  | .next s => .next (f s)
  | .fault r => .fault r
  | .refused r => .refused r

/-- The CMD vector `{rst, start, mode}` (R35). -/
def cmdVector (i : HostInputs) : BitVec 3 := i.rst ++ i.start ++ i.mode

/-- The command that the core samples from its input ports in this step (R9, R36). -/
def State.fetch (s : State) : Instr := decodeCmd (cmdVector s.inputs) s.inputs.keyIn s.inputs.din

/-- What the host drives in an unscripted step: free values (log entry 4). -/
def freeInputs (n : Nat) : HostInputs :=
  { rst := Config.hostRst n, start := Config.hostStart n, mode := Config.hostMode n,
    keyIn := Config.hostKeyIn n, din := Config.hostDin n }

/-- After a step the host presents its next inputs: the next of the script, and after it free values (log entry 4). -/
def State.presentNext (s : State) : State :=
  match s.script with
  | i :: rest => { s with inputs := i, script := rest }
  | [] => { s with inputs := freeInputs s.drawn, drawn := s.drawn + 1 }

/-- The writes of RST: phase, cnt and done_r; mode_r, s_r and rk keep their bits (R97). -/
def State.resetControl (s : State) : State := { s with phase := .idle, cnt := 0, doneR := 0 }

/-- `rk[i]`; there is no entry 11..15 (R15, R31). -/
def State.readRk (s : State) (i : BitVec 4) : Option Block := s.rk[i.toNat]?

/-- `rk[i] <- v`; there is no entry 11..15 (R15). -/
def State.writeRk (s : State) (i : BitVec 4) (v : Block) : State := { s with rk := s.rk.setIfInBounds i.toNat v }

/-- The sequencer after key step `i` (R82). -/
def State.advanceKey (s : State) (i : BitVec 4) : State :=
  if i = 10 then { s with phase := .rnd, cnt := 0 } else { s with cnt := i + 1 }

/-- The sequencer after round step `k < 10` (R83). -/
def State.advanceRound (s : State) (k : BitVec 4) : State := { s with cnt := k + 1 }

/-- Completion: the writes of the round step with `cnt = 10` (R84). -/
def State.complete (s : State) : State := { s with phase := .idle, cnt := 0, doneR := 1 }

/-- `s_r <- v` (R83). -/
def State.latchBlock (s : State) (v : Block) : State := { s with sR := v }

/-- `subyte_stage` performs an operation (R50). -/
def State.driveSubyte (s : State) (inv : Bit) (d : Block) : State :=
  { s with subyte := { dIn := d, inv := inv, dOut := subyteStage inv d } }

/-- `shiftrows_stage` performs an operation (R53). -/
def State.driveShiftrows (s : State) (inv : Bit) (d : Block) : State :=
  { s with shiftrows := { dIn := d, inv := inv, dOut := shiftrowsStage inv d } }

/-- `mixcolumns_stage` performs an operation (R56). -/
def State.driveMixcolumns (s : State) (inv : Bit) (d : Block) : State :=
  { s with mixcolumns := { dIn := d, inv := inv, dOut := mixcolumnsStage inv d } }

/-- `mixcolumns_stage` bypassed: its `d_out` is not used, it is fed `inv` and answers for the block at its `d_in` (R37, R56;
log entry 2). -/
def State.bypassMixcolumns (s : State) (inv : Bit) : State := s.driveMixcolumns inv s.mixcolumns.dIn

/-- The round datapath feeds `inv` to every unit that has a select input, and the unit answers for the block at its `d_in`
(R37). -/
def State.driveSelects (s : State) (inv : Bit) : State :=
  { s with
    subyte := { dIn := s.subyte.dIn, inv := inv, dOut := subyteStage inv s.subyte.dIn }
    shiftrows := { dIn := s.shiftrows.dIn, inv := inv, dOut := shiftrowsStage inv s.shiftrows.dIn }
    mixcolumns := { dIn := s.mixcolumns.dIn, inv := inv, dOut := mixcolumnsStage inv s.mixcolumns.dIn } }

/-- Every select input carries `inv` (R37). -/
abbrev State.selectsAt (s : State) (inv : Bit) : Prop :=
  s.subyte.inv = inv ∧ s.shiftrows.inv = inv ∧ s.mixcolumns.inv = inv

/-- The writes of an accept (R79, R80); the select inputs, tied to `mode_r`, follow its new value (R37; log entry 2). -/
def State.accept (s : State) (mode : Bit) (keyIn din : Block) : State :=
  { s.driveSelects mode with
    rk := s.rk.set 0 keyIn
    sR := din
    modeR := mode
    cnt := 1
    phase := .kexp
    doneR := 0 }

/-- `addroundkey_stage` performs an operation (R59). -/
def State.driveAddroundkey (s : State) (d k : Block) : State :=
  { s with addroundkey := { dIn := d, rkIn := k, dOut := addRoundKey d k } }

/-- The `aes_key_expand` step unit answers `next` for round `i` (R61). -/
def State.driveKeyExpand (s : State) (prev : Block) (i : BitVec 4) (next : Block) : State :=
  { s with keyExpand := { prev := prev, i := i, next := next } }

/-- A round step with round key `rk[j]` (R31, R83); `k` is the round-step index, named in the fault that no round step
reaches. -/
def withRoundKey (s : State) (k j : BitVec 4) (f : Block → State) : Result :=
  match s.readRk j with
  | some key => .next (f key)
  | none => unreachableControl .rnd k

end Sys2Proof.Machine
end

