-- ==== Sys2Proof/Machine/KeyStep.lean ====
section
/-! DEFINITION. The operation of format KX: the key step (spec/42_key_expand.md R64, spec/44_core_control.md R82). -/

namespace Sys2Proof.Machine

/-- KEYSTEP for round `i`: drive the step unit with `prev = rk[i-1]`, write `rk[i]`, advance the sequencer (R64, R82). A
reserved index faults (R38, R90). -/
def execKeyStep (i : BitVec 4) (s : State) : Result :=
  match s.readRk (i - 1) with
  | none => unreachableControl .kexp i
  | some prev =>
    match keyStep prev i with
    | none => unreachableControl .kexp i
    | some next => .next (((s.driveKeyExpand prev i next).writeRk i next).advanceKey i)

end Sys2Proof.Machine
end

