-- ==== Sys2Proof/Machine/RoundStep.lean ====
section
/-! DEFINITION. The operations of format RS: the round steps (spec/43_cipher.md R70-R75, spec/44_core_control.md R83, R84).
Every stage is fed `inv = mode_r`, a bypassed one too (R37): 0 in the encrypt operations, 1 in the decrypt operations. The
stages of the datapath are chained in one step, and the last one's output is latched in `s_r`. -/

namespace Sys2Proof.Machine

/-- AddRoundKey alone: the datapath of ENC_INIT (`inv` 0) and DEC_FINAL (`inv` 1) (R70, R75). -/
def State.chainKeyOnly (s : State) (inv : Bit) (key : Block) : State :=
  let s := s.driveSelects inv
  let s := s.driveAddroundkey s.sR key
  s.latchBlock s.addroundkey.dOut

/-- SubBytes, ShiftRows, MixColumns, AddRoundKey (R71). -/
def State.chainEncrypt (s : State) (key : Block) : State :=
  let s := s.driveSubyte 0 s.sR
  let s := s.driveShiftrows 0 s.subyte.dOut
  let s := s.driveMixcolumns 0 s.shiftrows.dOut
  let s := s.driveAddroundkey s.mixcolumns.dOut key
  s.latchBlock s.addroundkey.dOut

/-- SubBytes, ShiftRows, AddRoundKey, `mixcolumns_stage` bypassed (R72). -/
def State.chainEncryptFinal (s : State) (key : Block) : State :=
  let s := s.bypassMixcolumns 0
  let s := s.driveSubyte 0 s.sR
  let s := s.driveShiftrows 0 s.subyte.dOut
  let s := s.driveAddroundkey s.shiftrows.dOut key
  s.latchBlock s.addroundkey.dOut

/-- AddRoundKey, InvShiftRows, InvSubBytes, `mixcolumns_stage` bypassed (R73). -/
def State.chainDecryptInit (s : State) (key : Block) : State :=
  let s := s.bypassMixcolumns 1
  let s := s.driveAddroundkey s.sR key
  let s := s.driveShiftrows 1 s.addroundkey.dOut
  let s := s.driveSubyte 1 s.shiftrows.dOut
  s.latchBlock s.subyte.dOut

/-- AddRoundKey, InvMixColumns, InvShiftRows, InvSubBytes (R74). -/
def State.chainDecrypt (s : State) (key : Block) : State :=
  let s := s.driveAddroundkey s.sR key
  let s := s.driveMixcolumns 1 s.addroundkey.dOut
  let s := s.driveShiftrows 1 s.mixcolumns.dOut
  let s := s.driveSubyte 1 s.shiftrows.dOut
  s.latchBlock s.subyte.dOut

/-- ENC_INIT: round step 0 of an encryption, with `rk[0]` (R70, R83). -/
def execEncInit (s : State) : Result :=
  withRoundKey s 0 0 fun key => (s.chainKeyOnly 0 key).advanceRound 0

/-- ENC_ROUND: round step `k` of an encryption, with `rk[k]` (R71, R83); no operation outside 1..9 (R39; log entry 10). -/
def execEncRound (k : BitVec 4) (s : State) : Result :=
  if middleRoundOk k then withRoundKey s k k fun key => (s.chainEncrypt key).advanceRound k
  else unreachableControl .rnd k

/-- ENC_FINAL: round step 10 of an encryption, with `rk[10]`, and completion (R72, R84). -/
def execEncFinal (s : State) : Result :=
  withRoundKey s 10 10 fun key => (s.chainEncryptFinal key).complete

/-- DEC_INIT: round step 0 of a decryption, with `rk[10]` (R73, R83). -/
def execDecInit (s : State) : Result :=
  withRoundKey s 0 10 fun key => (s.chainDecryptInit key).advanceRound 0

/-- DEC_ROUND: round step `k` of a decryption, with `rk[10-k]` (R74, R83); no operation outside 1..9 (R39; log entry 10). -/
def execDecRound (k : BitVec 4) (s : State) : Result :=
  if middleRoundOk k then withRoundKey s k (10 - k) fun key => (s.chainDecrypt key).advanceRound k
  else unreachableControl .rnd k

/-- DEC_FINAL: round step 10 of a decryption, with `rk[0]`, and completion (R75, R84). -/
def execDecFinal (s : State) : Result :=
  withRoundKey s 10 0 fun key => (s.chainKeyOnly 1 key).complete

end Sys2Proof.Machine
end

