-- ==== Sys2Proof/Machine/Command.lean ====
section
/-! DEFINITION. The host commands, format CMD (spec/44_core_control.md R77-R81, spec/70_reset_and_hazards.md R97). A command
that finds the core busy has no effect of its own: the step is then the key step or the round step. -/

namespace Sys2Proof.Machine

/-- The key step that the KX vector `cnt` selects in phase KEXP (R38, R82). -/
def State.keyPhaseStep (s : State) : Result :=
  match decodeKx s.cnt with
  | some (.keyStep i) => execKeyStep i s
  | _ => unreachableControl s.phase s.cnt

/-- The round step that the RS vector `{mode_r, cnt}` selects in phase RND (R39, R83). -/
def State.roundPhaseStep (s : State) : Result :=
  match decodeRs (s.modeR ++ s.cnt) with
  | some .encInit => execEncInit s
  | some (.encRound k) => execEncRound k s
  | some .encFinal => execEncFinal s
  | some .decInit => execDecInit s
  | some (.decRound k) => execDecRound k s
  | some .decFinal => execDecFinal s
  | _ => unreachableControl s.phase s.cnt

/-- A step without reset, by the lines of R77: `idleNext` is the next state if the core is idle. -/
def State.commandStep (s : State) (idleNext : State) : Result :=
  match s.phase with
  | .idle => if s.cnt = 0 then .next idleNext else unreachableControl s.phase s.cnt
  | .kexp => s.keyPhaseStep
  | .rnd => s.roundPhaseStep
  | .reserved => unreachableControl s.phase s.cnt

/-- RST, in any control state, the reserved ones too (R77, R97). -/
def execRst (s : State) : Result := .next s.resetControl

/-- NOP: idle, nothing changes; busy, the step goes on (R78). -/
def execNop (s : State) : Result := s.commandStep s

/-- ENC: idle, accept an encryption; busy, ignored (R79, R81). -/
def execEnc (keyIn din : Block) (s : State) : Result := s.commandStep (s.accept 0 keyIn din)

/-- DEC: idle, accept a decryption; busy, ignored (R80, R81). -/
def execDec (keyIn din : Block) (s : State) : Result := s.commandStep (s.accept 1 keyIn din)

end Sys2Proof.Machine
end

