-- ==== Sys2Proof/Machine/Stage.lean ====
section
/-! DEFINITION. The operations of format SEL (spec/41_round_stages.md): each drives its unit, which answers on `d_out` in
the same step. No register and no flag is written. -/

namespace Sys2Proof.Machine

/-- SUBBYTES (R51). -/
def execSubBytes (d : Block) (s : State) : Result := .next (s.driveSubyte 0 d)

/-- INVSUBBYTES (R52). -/
def execInvSubBytes (d : Block) (s : State) : Result := .next (s.driveSubyte 1 d)

/-- SHIFTROWS (R54). -/
def execShiftRows (d : Block) (s : State) : Result := .next (s.driveShiftrows 0 d)

/-- INVSHIFTROWS (R55). -/
def execInvShiftRows (d : Block) (s : State) : Result := .next (s.driveShiftrows 1 d)

/-- MIXCOLUMNS (R57). -/
def execMixColumns (d : Block) (s : State) : Result := .next (s.driveMixcolumns 0 d)

/-- INVMIXCOLUMNS (R58). -/
def execInvMixColumns (d : Block) (s : State) : Result := .next (s.driveMixcolumns 1 d)

/-- ADDROUNDKEY (R59). -/
def execAddRoundKey (d k : Block) (s : State) : Result := .next (s.driveAddroundkey d k)

end Sys2Proof.Machine
end

