-- ==== Sys2Proof/Machine/Dispatch.lean ====
section
/-! DEFINITION. One arm for each operation of spec/opcode_table.json. -/

namespace Sys2Proof.Machine

def exec (i : Instr) (s : State) : Host.Outcome State Fault Refusal :=
  match i with
  -- format CMD
  | .rst => Sys2Proof.Machine.execRst s
  | .nop => Sys2Proof.Machine.execNop s
  | .enc keyIn din => Sys2Proof.Machine.execEnc keyIn din s
  | .dec keyIn din => Sys2Proof.Machine.execDec keyIn din s
  -- format SEL
  | .subBytes d => Sys2Proof.Machine.execSubBytes d s
  | .invSubBytes d => Sys2Proof.Machine.execInvSubBytes d s
  | .shiftRows d => Sys2Proof.Machine.execShiftRows d s
  | .invShiftRows d => Sys2Proof.Machine.execInvShiftRows d s
  | .mixColumns d => Sys2Proof.Machine.execMixColumns d s
  | .invMixColumns d => Sys2Proof.Machine.execInvMixColumns d s
  | .addRoundKey d k => Sys2Proof.Machine.execAddRoundKey d k s
  -- format KX
  | .keyStep r => Sys2Proof.Machine.execKeyStep r s
  -- format RS
  | .encInit => Sys2Proof.Machine.execEncInit s
  | .encRound k => Sys2Proof.Machine.execEncRound k s
  | .encFinal => Sys2Proof.Machine.execEncFinal s
  | .decInit => Sys2Proof.Machine.execDecInit s
  | .decRound k => Sys2Proof.Machine.execDecRound k s
  | .decFinal => Sys2Proof.Machine.execDecFinal s

end Sys2Proof.Machine
end

