-- ==== Sys2Proof/Machine/Place.lean ====
section
/-! DEFINITION. Placing an operation so that the very next step runs it: a command at the input ports of an idle core, a
round step in the sequencer (log entries 5 and 6). -/

namespace Sys2Proof.Machine

/-- The CMD vector `cmd` at the input ports, operands zero; a command other than RST needs the core idle (R77). -/
def State.placeCmd (s : State) (cmd : BitVec 3) : State :=
  let inputs : HostInputs :=
    { rst := cmd.extractLsb' 2 1, start := cmd.extractLsb' 1 1, mode := cmd.extractLsb' 0 1, keyIn := 0, din := 0 }
  if cmd.extractLsb' 2 1 = 1#1 then { s with inputs := inputs }
  else { s with inputs := inputs, phase := .idle, cnt := 0 }

/-- The RS vector `{mode_r, cnt}` in the sequencer of a core in phase RND that is not being reset (R39, R77). -/
def State.placeRs (s : State) (rs : BitVec 5) : State :=
  { s with
    phase := .rnd
    cnt := rs.extractLsb' 0 4
    modeR := rs.extractLsb' 4 1
    inputs := { s.inputs with rst := 0 } }

/-- A bare number of the opcode table placed at the point at which the table's decoder reads it. ADDROUNDKEY is performed
by the round step that uses `addroundkey_stage` and no other stage: ENC_INIT. -/
def State.placeTableWord (s : State) (nbits w : Nat) : State :=
  match tablePoint nbits w with
  | some .cmd => s.placeCmd (BitVec.ofNat 3 w)
  | some .rs => s.placeRs (BitVec.ofNat 5 w)
  | some .addroundkey => s.placeRs 0
  | some .subyte | some .shiftrows | some .mixcolumns | some .kx | none => s

end Sys2Proof.Machine
end

