-- ==== Sys2Proof/Machine/Step.lean ====
section
/-! DEFINITION. One step: sample the command at the input ports, run it, and let the host present its next inputs
(spec/44_core_control.md R77). -/

namespace Sys2Proof.Machine

/-- One rising clock edge (R77). -/
def step (s : State) : Host.Outcome State Fault Refusal := mapNext State.presentNext (exec s.fetch s)

/-- `s` with the operation of a bare number of the opcode table placed where the next step runs it (log entry 6). -/
def State.withFetchWord (s : State) (nbits w : Nat) : State := s.placeTableWord nbits w

end Sys2Proof.Machine
end

