-- ==== Sys2Proof/Machine/Assembly.lean ====
section
/-! DEFINITION. The host's assembly lines and pseudo-instructions as sequences of host inputs, one a step
(spec/30_encoding.md R42, R43). They are a notation for what the host presents, not operations of the core. -/

namespace Sys2Proof.Machine

/-- A line of a host program that expands by itself (R42, R43). WAITDONE looks at `done` and is `waitDone` below; CHECK takes
no step and is `State.checks` below. -/
inductive AsmLine where
  | rst
  | nop
  | enc (key data : Block)
  | dec (key data : Block)
  /-- `WAIT n`: n NOPs (R43). -/
  | wait (n : Nat)
  /-- `ENCRYPT key, data`: ENC and 21 NOPs (R43). -/
  | encrypt (key data : Block)
  /-- `DECRYPT key, data`: DEC and 21 NOPs (R43). -/
  | decrypt (key data : Block)
  /-- `RESET`: a synonym of RST (R43). -/
  | reset
deriving DecidableEq, Repr

/-- RST's inputs, CMD `1 0 0`; `key_in` and `din` are don't care and given as `x` (R42). -/
def rstInputs (x : Block × Block) : HostInputs := { rst := 1, start := 0, mode := 0, keyIn := x.1, din := x.2 }

/-- NOP's inputs, CMD `0 0 0`; `key_in` and `din` are don't care and given as `x` (R42). -/
def nopInputs (x : Block × Block) : HostInputs := { rst := 0, start := 0, mode := 0, keyIn := x.1, din := x.2 }

/-- ENC's inputs, CMD `0 1 0` (R42). -/
def encInputs (key data : Block) : HostInputs := { rst := 0, start := 1, mode := 0, keyIn := key, din := data }

/-- DEC's inputs, CMD `0 1 1` (R42). -/
def decInputs (key data : Block) : HostInputs := { rst := 0, start := 1, mode := 1, keyIn := key, din := data }

/-- What a line has the host present, step by step (R42, R43). -/
def AsmLine.expand (x : Block × Block) : AsmLine → List HostInputs
  | .rst => [rstInputs x]
  | .nop => [nopInputs x]
  | .enc key data => [encInputs key data]
  | .dec key data => [decInputs key data]
  | .wait n => List.replicate n (nopInputs x)
  | .encrypt key data => encInputs key data :: List.replicate 21 (nopInputs x)
  | .decrypt key data => decInputs key data :: List.replicate 21 (nopInputs x)
  | .reset => [rstInputs x]

/-- What a program has the host present (R42). -/
def expandProgram (x : Block × Block) (lines : List AsmLine) : List HostInputs := lines.flatMap (AsmLine.expand x)

/-- The host presents a sequence of inputs from the next step on; after them it drives what it likes. -/
def State.load (s : State) : List HostInputs → State
  | [] => s
  | i :: rest => { s with inputs := i, script := rest }

/-- WAITDONE: NOP repeated while `done = 0`, at most `n` of them (R43). -/
def waitDone (x : Block × Block) : Nat → State → Result
  | 0, s => .next s
  | n + 1, s =>
    if s.done = 1 then .next s
    else
      match step (s.load [nopInputs x]) with
      | .next t => waitDone x n t
      | .fault r => .fault r
      | .refused r => .refused r

/-- `CHECK busy=b done=d [dout=v]`: what it states of the outputs (R42). -/
def State.checks (s : State) (busy done : Bit) (dout : Option Block) : Bool :=
  s.busy == busy && s.done == done &&
    match dout with
    | none => true
    | some v => s.dout == some v

end Sys2Proof.Machine
end

