-- ==== Sys2Proof/Machine/Cipher.lean ====
section
/-! DEFINITION. The block cipher as functions: `aes_encrypt_block` and `aes_decrypt_block` (spec/43_cipher.md R67, R68). -/

namespace Sys2Proof.Machine

/-- A middle encrypt round: SubBytes, ShiftRows, MixColumns, AddRoundKey (R67). -/
def encryptRound (s k : Block) : Block := addRoundKey (mixColumns (shiftRows (subBytes s))) k

/-- The final encrypt round, without MixColumns (R67). -/
def encryptFinal (s k : Block) : Block := addRoundKey (shiftRows (subBytes s)) k

/-- The first decrypt round, without InvMixColumns (R68). -/
def decryptInit (s k : Block) : Block := invSubBytes (invShiftRows (addRoundKey s k))

/-- A middle decrypt round: AddRoundKey, InvMixColumns, InvShiftRows, InvSubBytes (R68). -/
def decryptRound (s k : Block) : Block := invSubBytes (invShiftRows (invMixColumns (addRoundKey s k)))

/-- Encrypt(P, K) (R67). -/
def encrypt (p k : Block) : Block :=
  let rk := expandKey k
  let s := addRoundKey p rk[0]
  let s := [rk[1], rk[2], rk[3], rk[4], rk[5], rk[6], rk[7], rk[8], rk[9]].foldl encryptRound s
  encryptFinal s rk[10]

/-- Decrypt(C, K), the straightforward inverse cipher (R68). -/
def decrypt (c k : Block) : Block :=
  let rk := expandKey k
  let s := decryptInit c rk[10]
  let s := [rk[9], rk[8], rk[7], rk[6], rk[5], rk[4], rk[3], rk[2], rk[1]].foldl decryptRound s
  addRoundKey s rk[0]

end Sys2Proof.Machine
end

