-- ==== Sys2Proof/Safety.lean ====
section
/-! DEFINITION. The properties of states in which statements are made: the legal control states, the flags, the units'
answers, the part of the key schedule that an operation has written, and the control path. -/

namespace Sys2Proof.Machine

/-- The control states that are not reserved: `cnt` 0 in IDLE, 1..10 in KEXP, 0..10 in RND (R11, R12, R90). -/
def legalControl : Phase → BitVec 4 → Bool
  | .idle, cnt => cnt == 0
  | .kexp, cnt => keyIndexOk cnt
  | .rnd, cnt => cnt ≤ 10
  | .reserved, _ => false

/-- A state in a legal control state. -/
abbrev State.legal (s : State) : Prop := legalControl s.phase s.cnt = true

/-- `busy` and `done` are not both 1 (R18). -/
abbrev State.flagsExclusive (s : State) : Prop := ¬ (s.busy = 1 ∧ s.done = 1)

/-- Every unit's output is its function of its inputs: the units are combinational (R50, R53, R56, R59, R61). -/
abbrev State.unitsAnswer (s : State) : Prop :=
  s.subyte.dOut = subyteStage s.subyte.inv s.subyte.dIn ∧
  s.shiftrows.dOut = shiftrowsStage s.shiftrows.inv s.shiftrows.dIn ∧
  s.mixcolumns.dOut = mixcolumnsStage s.mixcolumns.inv s.mixcolumns.dIn ∧
  s.addroundkey.dOut = addRoundKey s.addroundkey.dIn s.addroundkey.rkIn ∧
  (keyIndexOk s.keyExpand.i = true → some s.keyExpand.next = keyStep s.keyExpand.prev s.keyExpand.i)

/-- Every select input carries `mode_r`, to which the core ties it (R37). -/
abbrev State.selectsTied (s : State) : Prop := s.selectsAt s.modeR

/-- How many entries of the key store the running operation has written (R79, R80, R82). -/
def State.keysWritten (s : State) : Nat :=
  match s.phase with
  | .kexp => s.cnt.toNat
  | .rnd => Config.roundKeys
  | .idle | .reserved => 0

/-- The entries that the running operation has written are those of ExpandKey of its key, `rk[0]` (R65). -/
abbrev State.scheduleHeld (s : State) : Prop :=
  ∀ j : Fin Config.roundKeys, j.val < s.keysWritten → s.rk[j] = (expandKey s.rk[0])[j]

/-- The position after `(phase, cnt)` on the fixed path, without a reset; `start` tells whether a command is accepted
(R86). -/
def nextPosition (start : Bit) : Phase → BitVec 4 → Phase × BitVec 4
  | .idle, cnt => if start = 1 then (.kexp, 1) else (.idle, cnt)
  | .kexp, cnt => if cnt = 10 then (.rnd, 0) else (.kexp, cnt + 1)
  | .rnd, cnt => if cnt = 10 then (.idle, 0) else (.rnd, cnt + 1)
  | .reserved, cnt => (.reserved, cnt)

/-- No register of the core changed: phase, cnt, mode_r, s_r, rk, done_r (R11-R16). -/
abbrev registersKept (s t : State) : Prop :=
  t.phase = s.phase ∧ t.cnt = s.cnt ∧ t.modeR = s.modeR ∧ t.sR = s.sR ∧ t.rk = s.rk ∧ t.doneR = s.doneR

/-- What the host presents did not change (the model's fields of log entries 3 and 4). -/
abbrev hostKept (s t : State) : Prop := t.inputs = s.inputs ∧ t.script = s.script ∧ t.drawn = s.drawn

/-- The ports of no unit changed (the model's fields of log entry 2). -/
abbrev unitsKept (s t : State) : Prop :=
  t.subyte = s.subyte ∧ t.shiftrows = s.shiftrows ∧ t.mixcolumns = s.mixcolumns ∧
  t.addroundkey = s.addroundkey ∧ t.keyExpand = s.keyExpand

/-- From `s` to `t` the select inputs are fed `inv`, each of the three units answers for the block at its `d_in`, which it
keeps, and the other two units keep their ports (R37; log entry 2). -/
abbrev selectsFed (inv : Bit) (s t : State) : Prop :=
  t.subyte = ⟨s.subyte.dIn, inv, subyteStage inv s.subyte.dIn⟩ ∧
  t.shiftrows = ⟨s.shiftrows.dIn, inv, shiftrowsStage inv s.shiftrows.dIn⟩ ∧
  t.mixcolumns = ⟨s.mixcolumns.dIn, inv, mixcolumnsStage inv s.mixcolumns.dIn⟩ ∧
  t.addroundkey = s.addroundkey ∧ t.keyExpand = s.keyExpand

/-- Every one of the host's inputs holds `rst = 0`. -/
abbrev noReset (is : List HostInputs) : Prop := ∀ i ∈ is, i.rst = 0

/-- `n` steps of the machine (Host/Core.lean). -/
def runSteps (n : Nat) (s : State) : Result := Host.Core.run Sys2Proof.core n s

/-- Operations run one after the other, up to the first that stops. -/
def runOps : List Instr → State → Result
  | [], s => .next s
  | i :: rest, s =>
    match exec i s with
    | .next t => runOps rest t
    | .fault r => .fault r
    | .refused r => .refused r

/-- The encrypt round steps 0 .. k, for `k` in 0..9 (R76). -/
def encryptSteps (k : Nat) : List Instr :=
  .encInit :: (List.range k).map fun j => .encRound (BitVec.ofNat 4 (j + 1))

/-- The decrypt round steps 0 .. k, for `k` in 0..9 (R76). -/
def decryptSteps (k : Nat) : List Instr :=
  .decInit :: (List.range k).map fun j => .decRound (BitVec.ofNat 4 (j + 1))

/-- All round steps of an encryption, in order (R76). -/
def encryptOps : List Instr := encryptSteps 9 ++ [.encFinal]

/-- All round steps of a decryption, in order (R76). -/
def decryptOps : List Instr := decryptSteps 9 ++ [.decFinal]

/-- The working block after an operation that did not stop (R14). -/
def blockAfter : Result → Option Block
  | .next s => some s.sR
  | .fault _ | .refused _ => none

/-- The control part of an outcome: the sequencer position and the completion flag (R105). -/
def controlOf : Result → Option (Phase × BitVec 4 × Bit)
  | .next s => some (s.phase, s.cnt, s.doneR)
  | .fault _ | .refused _ => none

end Sys2Proof.Machine
end

