-- ==== Sys2Proof/Certificates/Slice0/Obligations.lean ====
section
/-! DEFINITION. The statements for the provers. -/

open Sys2Proof Sys2Proof.Machine

/-- Entry x of SBOX is the x-th byte of the table of R44, written out row after row; SBOX is a bijection; the four entry
checks hold. (spec rule R44) -/
def Obligations.SboxHoldsTheTable : Prop :=
  (∀ x : Byte, sbox x =
    (0x637c777bf26b6fc53001672bfed7ab76ca82c97dfa5947f0add4a2af9ca472c0b7fd9326363ff7cc34a5e5f171d8311504c723c31896059a071280e2eb27b27509832c1a1b6e5aa0523bd6b329e32f8453d100ed20fcb15b6acbbe394a4c58cfd0efaafb434d338545f9027f503c9fa851a3408f929d38f5bcb6da2110fff3d2cd0c13ec5f974417c4a77e3d645d197360814fdc222a908846eeb814de5e0bdbe0323a0a4906245cc2d3ac629195e479e7c8376d8dd54ea96c56f4ea657aae08ba78252e1ca6b4c6e8dd741f4bbd8b8a703eb5664803f60e613557b986c11d9ee1f8981169d98e949b1e87e9ce5528df8ca1890dbfe6426841992d0fb054bb16#2048).extractLsb'
      (8 * (255 - x.toNat)) 8) ∧
  Function.Bijective sbox ∧
  sbox 0x00 = 0x63 ∧ sbox 0x01 = 0x7c ∧ sbox 0x53 = 0xed ∧ sbox 0xff = 0x16

/-- INV_SBOX undoes SBOX and SBOX undoes INV_SBOX on every byte, and entry x of INV_SBOX is the x-th byte of the table of
R45. (spec rule R45) -/
def Obligations.InvSboxInvertsTheSbox : Prop :=
  (∀ x : Byte, invSbox (sbox x) = x ∧ sbox (invSbox x) = x) ∧
  (∀ x : Byte, invSbox x =
    (0x52096ad53036a538bf40a39e81f3d7fb7ce339829b2fff87348e4344c4dee9cb547b9432a6c2233dee4c950b42fac34e082ea16628d924b2765ba2496d8bd12572f8f66486689816d4a45ccc5d65b6926c704850fdedb9da5e154657a78d9d8490d8ab008cbcd30af7e45805b8b34506d02c1e8fca3f0f02c1afbd0301138a6b3a9111414f67dcea97f2cfcef0b4e67396ac7422e7ad3585e2f937e81c75df6e47f11a711d29c5896fb7620eaa18be1bfc563e4bc6d279209adbc0fe78cd5af41fdda8338807c731b11210592780ec5f60517fa919b54a0d2de57a9f93c99cefa0e03b4dae2af5b0c8ebbb3c83539961172b047eba77d626e169146355210c7d#2048).extractLsb'
      (8 * (255 - x.toNat)) 8)

/-- RCON[1..10] are 01 02 04 08 10 20 40 80 1b 36; RCON[i+1] = xtime(RCON[i]); RCON has no value outside 1..10. (spec rule
R46) -/
def Obligations.RconHoldsItsTenEntries : Prop :=
  rcon 1 = some 0x01 ∧ rcon 2 = some 0x02 ∧ rcon 3 = some 0x04 ∧ rcon 4 = some 0x08 ∧ rcon 5 = some 0x10 ∧
  rcon 6 = some 0x20 ∧ rcon 7 = some 0x40 ∧ rcon 8 = some 0x80 ∧ rcon 9 = some 0x1b ∧ rcon 10 = some 0x36 ∧
  (∀ i : BitVec 4, 1 ≤ i → i ≤ 9 → rcon (i + 1) = (rcon i).map xtime) ∧
  (∀ i : BitVec 4, (rcon i).isSome = true ↔ 1 ≤ i ∧ i ≤ 10)

/-- xtime(b) = {b[6:0], 0} ^ (b[7] ? 1B : 00); xtime(a ^ b) = xtime(a) ^ xtime(b); the corner cases and the worked example
of R47 hold. (spec rule R47) -/
def Obligations.XtimeDoublesModuloThePolynomial : Prop :=
  (∀ b : Byte, xtime b = (b.extractLsb' 0 7 ++ 0#1) ^^^ (if b.extractLsb' 7 1 = 1#1 then 0x1b#8 else 0x00#8)) ∧
  (∀ a b : Byte, xtime (a ^^^ b) = xtime a ^^^ xtime b) ∧
  xtime 0x00 = 0x00 ∧ xtime 0x80 = 0x1b ∧ xtime 0xff = 0xe5 ∧ xtime 0x01 = 0x02

/-- For every word, InvMixWord is the product with [[14,11,13,9],[9,14,11,13],[13,9,14,11],[11,13,9,14]], whose rows 2 to
4 the spec gives as its own inference ("The other three rows are its cyclic shifts"). (Rests on 41_round_stages.md
section 3 (the inverse matrix); 40_tables_gf.md section 3 (the coefficient products)) -/
def Obligations.InvMixWordIsTheInverseMatrix : Prop :=
  ∀ a b c d : Byte, invMixWord ⟨a, b, c, d⟩ =
    ⟨mul14 a ^^^ mul11 b ^^^ mul13 c ^^^ mul9 d, mul9 a ^^^ mul14 b ^^^ mul11 c ^^^ mul13 d,
     mul13 a ^^^ mul9 b ^^^ mul14 c ^^^ mul11 d, mul11 a ^^^ mul13 b ^^^ mul9 c ^^^ mul14 d⟩

/-- SUBBYTES of any block d in any state answers a next state whose subyte_stage d_out has SBOX[d[n]] as byte n, for n in
0..15; SubBytes is a bijection on blocks. It writes no register. That d_out is held in the state is the model's choice
(log entry 2); its value is the rule's. (spec rule R51) -/
def Obligations.SubBytesSubstitutesEveryByte : Prop :=
  (∀ (d : Block) (s : State), ∃ t, exec (.subBytes d) s = .next t ∧ registersKept s t ∧
    t.subyte.dIn = d ∧ t.subyte.inv = 0 ∧
    ∀ n < 16, byteOf t.subyte.dOut n = sbox (byteOf d n)) ∧
  Function.Bijective subBytes

/-- INVSUBBYTES of any block d answers a next state whose d_out has INV_SBOX[d[n]] as byte n; InvSubBytes and SubBytes
undo each other. It writes no register. That d_out is held in the state is the model's choice (log entry 2); its value
is the rule's. (spec rule R52) -/
def Obligations.InvSubBytesSubstitutesBack : Prop :=
  (∀ (d : Block) (s : State), ∃ t, exec (.invSubBytes d) s = .next t ∧ registersKept s t ∧
    t.subyte.dIn = d ∧ t.subyte.inv = 1 ∧
    ∀ n < 16, byteOf t.subyte.dOut n = invSbox (byteOf d n)) ∧
  (∀ b : Block, invSubBytes (subBytes b) = b ∧ subBytes (invSubBytes b) = b)

/-- SHIFTROWS of any block d answers a next state with s'[r,c] = s[r,(c+r) mod 4] on d_out; bytes 0, 4, 8, 12 never move;
a block whose four columns are equal is a fixed point. It writes no register. That d_out is held in the state is the
model's choice (log entry 2); its value is the rule's. (spec rule R54) -/
def Obligations.ShiftRowsRotatesRowsLeft : Prop :=
  (∀ (d : Block) (s : State), ∃ t, exec (.shiftRows d) s = .next t ∧ registersKept s t ∧
    t.shiftrows.dIn = d ∧ t.shiftrows.inv = 0 ∧
    ∀ r < 4, ∀ c < 4, byteOf t.shiftrows.dOut (r + 4 * c) = byteOf d (r + 4 * ((c + r) % 4))) ∧
  (∀ (d : Block) (s t : State), exec (.shiftRows d) s = .next t →
    (∀ c < 4, byteOf t.shiftrows.dOut (4 * c) = byteOf d (4 * c)) ∧
    (wordOf d 0 = wordOf d 1 → wordOf d 1 = wordOf d 2 → wordOf d 2 = wordOf d 3 → t.shiftrows.dOut = d))

/-- INVSHIFTROWS of any block d answers a next state in which the byte at row r, column c of d stands at column (c+r) mod
4 of the row (s'[r,c] = s[r,(c-r) mod 4]); InvShiftRows(ShiftRows(B)) = B. It writes no register. That d_out is held
in the state is the model's choice (log entry 2); its value is the rule's. (spec rule R55) -/
def Obligations.InvShiftRowsRotatesRowsRight : Prop :=
  (∀ (d : Block) (s : State), ∃ t, exec (.invShiftRows d) s = .next t ∧ registersKept s t ∧
    t.shiftrows.dIn = d ∧ t.shiftrows.inv = 1 ∧
    ∀ r < 4, ∀ c < 4, byteOf t.shiftrows.dOut (r + 4 * ((c + r) % 4)) = byteOf d (r + 4 * c)) ∧
  (∀ b : Block, invShiftRows (shiftRows b) = b)

/-- MIXCOLUMNS of any block answers a next state whose d_out has MixWord of word j as word j; MixWord is the t form of R57
and the product with [[2,3,1,1],[1,2,3,1],[1,1,2,3],[3,1,1,2]]; equal bytes are a fixed point; the zero block maps to
itself. It writes no register. That d_out is held in the state is the model's choice (log entry 2); its value is the
rule's. (spec rule R57) -/
def Obligations.MixColumnsMixesEveryWord : Prop :=
  (∀ (x : Block) (s : State), ∃ t, exec (.mixColumns x) s = .next t ∧ registersKept s t ∧
    t.mixcolumns.dIn = x ∧ t.mixcolumns.inv = 0 ∧
    ∀ j < 4, wordOf t.mixcolumns.dOut j = mixWord (wordOf x j)) ∧
  (∀ a b c d : Byte, mixWord ⟨a, b, c, d⟩ =
    ⟨a ^^^ (a ^^^ b ^^^ c ^^^ d) ^^^ xtime (a ^^^ b), b ^^^ (a ^^^ b ^^^ c ^^^ d) ^^^ xtime (b ^^^ c),
     c ^^^ (a ^^^ b ^^^ c ^^^ d) ^^^ xtime (c ^^^ d), d ^^^ (a ^^^ b ^^^ c ^^^ d) ^^^ xtime (d ^^^ a)⟩) ∧
  (∀ a b c d : Byte, mixWord ⟨a, b, c, d⟩ =
    ⟨mul2 a ^^^ mul3 b ^^^ c ^^^ d, a ^^^ mul2 b ^^^ mul3 c ^^^ d,
     a ^^^ b ^^^ mul2 c ^^^ mul3 d, mul3 a ^^^ b ^^^ c ^^^ mul2 d⟩) ∧
  (∀ a : Byte, mixWord ⟨a, a, a, a⟩ = ⟨a, a, a, a⟩) ∧ mixColumns 0 = 0

/-- INVMIXCOLUMNS of any block answers a next state whose d_out has InvMixWord of word j as word j, InvMixWord being the
u, v form of R58; InvMixColumns and MixColumns undo each other; equal bytes are a fixed point. (The matrix the rule
infers is a statement of its own.) It writes no register. That d_out is held in the state is the model's choice (log
entry 2); its value is the rule's. (spec rule R58) -/
def Obligations.InvMixColumnsCorrectsThenMixes : Prop :=
  (∀ (x : Block) (s : State), ∃ t, exec (.invMixColumns x) s = .next t ∧ registersKept s t ∧
    t.mixcolumns.dIn = x ∧ t.mixcolumns.inv = 1 ∧
    ∀ j < 4, wordOf t.mixcolumns.dOut j = invMixWord (wordOf x j)) ∧
  (∀ a b c d : Byte, invMixWord ⟨a, b, c, d⟩ =
    mixWord ⟨a ^^^ xtime (xtime (a ^^^ c)), b ^^^ xtime (xtime (b ^^^ d)),
      c ^^^ xtime (xtime (a ^^^ c)), d ^^^ xtime (xtime (b ^^^ d))⟩) ∧
  (∀ b : Block, invMixColumns (mixColumns b) = b ∧ mixColumns (invMixColumns b) = b) ∧
  (∀ a : Byte, invMixWord ⟨a, a, a, a⟩ = ⟨a, a, a, a⟩)

/-- ADDROUNDKEY of any block and round key answers a next state whose d_out has d[n] ^ k[n] as byte n; it is self-inverse,
a zero key is the identity, a key equal to the block gives zero. It writes no register. That d_out is held in the
state is the model's choice (log entry 2); its value is the rule's. (spec rule R59) -/
def Obligations.AddRoundKeyXorsTheRoundKey : Prop :=
  (∀ (d k : Block) (s : State), ∃ t, exec (.addRoundKey d k) s = .next t ∧ registersKept s t ∧
    t.addroundkey.dIn = d ∧ t.addroundkey.rkIn = k ∧
    ∀ n < 16, byteOf t.addroundkey.dOut n = byteOf d n ^^^ byteOf k n) ∧
  (∀ b k : Block, addRoundKey (addRoundKey b k) k = b ∧ addRoundKey b 0 = b ∧ addRoundKey b b = 0)

/-- For every block B and round key K: InvSubBytes(SubBytes(B)) = B, InvShiftRows(ShiftRows(B)) = B,
InvMixColumns(MixColumns(B)) = B, AddRoundKey(AddRoundKey(B,K),K) = B. (spec rule R60) -/
def Obligations.StagesAreInvertible : Prop :=
  ∀ b k : Block, invSubBytes (subBytes b) = b ∧ invShiftRows (shiftRows b) = b ∧
    invMixColumns (mixColumns b) = b ∧ addRoundKey (addRoundKey b k) k = b

/-- The compositions the other way round, and SubBytes(ShiftRows(B)) = ShiftRows(SubBytes(B)), for every block B; the spec
marks both as its inference ("They also hold with the composition the other way round"). (Rests on 41_round_stages.md
section 5 (stage laws)) -/
def Obligations.StagesInvertTheOtherWayAndCommute : Prop :=
  ∀ b : Block, subBytes (invSubBytes b) = b ∧ shiftRows (invShiftRows b) = b ∧ mixColumns (invMixColumns b) = b ∧
    subBytes (shiftRows b) = shiftRows (subBytes b)

/-- RotWord rotates left by one byte, SubWord substitutes each byte, and for i in 1..10 KeyStep(P, i) has the words N_0 =
T ^ P_0, N_1 = N_0 ^ P_1, N_2 = N_1 ^ P_2, N_3 = N_2 ^ P_3 with T = SubWord(RotWord(P_3)), RCON[i] added to its first
byte; P = 0 and i = 1 give 62636363 four times. (spec rule R62, R63, R64) -/
def Obligations.KeyStepFunctionBuildsTheWords : Prop :=
  (∀ w : Word, rotWord w = ⟨w.b1, w.b2, w.b3, w.b0⟩) ∧
  (∀ w : Word, subWord w = ⟨sbox w.b0, sbox w.b1, sbox w.b2, sbox w.b3⟩) ∧
  (∀ a : Byte, rotWord ⟨a, a, a, a⟩ = ⟨a, a, a, a⟩) ∧
  (∀ (p : Block) (i : BitVec 4), 1 ≤ i → i ≤ 10 → ∃ c n, rcon i = some c ∧ keyStep p i = some n ∧
    let t := subWord (rotWord (wordOf p 3))
    wordOf n 0 = Word.xor ⟨t.b0 ^^^ c, t.b1, t.b2, t.b3⟩ (wordOf p 0) ∧
    wordOf n 1 = (wordOf n 0).xor (wordOf p 1) ∧
    wordOf n 2 = (wordOf n 1).xor (wordOf p 2) ∧
    wordOf n 3 = (wordOf n 2).xor (wordOf p 3)) ∧
  keyStep 0 1 = some 0x62636363626363636263636362636363

/-- For i in 1..10 and every state, KEYSTEP answers a next state with rk[i] = KeyStep(rk[i-1], i), every other entry, s_r,
mode_r and done_r unchanged, and (phase, cnt) = (RND, 0) if i = 10, else cnt = i + 1 in the same phase; in phase KEXP
with cnt = i the step is KEYSTEP i and busy stays 1. The operation is taken as selected, whatever phase, cnt and
mode_r are: the model's reading, log entry 9. (Rests on 44_core_control.md section 3 (key step); 42_key_expand.md
section 2 (key step)) -/
def Obligations.KeyStepWritesOneRoundKey : Prop :=
  (∀ (i : BitVec 4) (s : State), 1 ≤ i → i ≤ 10 → ∃ prev n t, s.rk[i.toNat - 1]? = some prev ∧ keyStep prev i = some n ∧
    exec (.keyStep i) s = .next t ∧
    t.rk[i.toNat]? = some n ∧ (∀ j, j ≠ i.toNat → t.rk[j]? = s.rk[j]?) ∧
    (i = 10 → t.phase = .rnd ∧ t.cnt = 0) ∧ (i ≠ 10 → t.phase = s.phase ∧ t.cnt = i + 1) ∧
    t.modeR = s.modeR ∧ t.sR = s.sR ∧ t.doneR = s.doneR) ∧
  (∀ s : State, s.phase = .kexp → 1 ≤ s.cnt → s.cnt ≤ 10 →
    exec .nop s = exec (.keyStep s.cnt) s ∧ ∃ t, exec .nop s = .next t ∧ t.busy = 1)

/-- Format KX: 1..10 decode to KEYSTEP i; 0 and 11..15 decode to nothing, and KEYSTEP with such an index raises
UnreachableControlState(KEXP, i) in every state; in phase KEXP the step runs KEYSTEP with index cnt. That the
operation runs in every state is the model's reading (log entry 9), and that its fault names phase KEXP outside that
phase too is the model's choice (log entry 10). (Rests on 30_encoding.md section 1 (format KX); 60_exceptions.md
section 1 (UnreachableControlState); 44_core_control.md section 3 (key step)) -/
def Obligations.KxIndexSelectsTheKeyStep : Prop :=
  (∀ i : BitVec 4, 1 ≤ i → i ≤ 10 → decodeKx i = some (.keyStep i)) ∧
  (∀ i : BitVec 4, i = 0 ∨ 11 ≤ i → decodeKx i = none ∧
    ∀ s : State, exec (.keyStep i) s = .fault (.unreachableControlState .kexp i)) ∧
  (∀ s : State, s.phase = .kexp → exec .nop s = exec (.keyStep s.cnt) s)

/-- ENC_INIT in every state answers a next state with s_r = AddRoundKey(s_r, rk[0]) and cnt = 1; phase, mode_r, rk, done_r
unchanged; if s_r equals rk[0] the result is zero. The operation is taken as selected, whatever phase, cnt and mode_r
are: the model's reading, log entry 9. (Rests on 43_cipher.md section 2 (round-step operations); 44_core_control.md
section 3 (round step, completion); 30_encoding.md section 1 (format RS)) -/
def Obligations.EncInitAddsRoundKeyZero : Prop :=
  (∀ (s : State), ∃ key t, s.rk[0]? = some key ∧ exec .encInit s = .next t ∧
    t.sR = addRoundKey s.sR key ∧
    t.phase = s.phase ∧ t.cnt = 1 ∧ t.doneR = s.doneR ∧
    t.modeR = s.modeR ∧ t.rk = s.rk) ∧
  (∀ s t : State, s.rk[0]? = some s.sR → exec .encInit s = .next t → t.sR = 0)

/-- For k in 1..9 and every state, ENC_ROUND k answers a next state with s_r =
AddRoundKey(MixColumns(ShiftRows(SubBytes(s_r))), rk[k]) and cnt = k + 1; phase, mode_r, rk, done_r unchanged. The
operation is taken as selected, whatever phase, cnt and mode_r are: the model's reading, log entry 9. (Rests on
43_cipher.md section 2 (round-step operations); 44_core_control.md section 3 (round step, completion); 30_encoding.md
section 1 (format RS)) -/
def Obligations.EncRoundRunsOneMiddleRound : Prop :=
  ∀ (k : BitVec 4) (s : State), 1 ≤ k → k ≤ 9 → ∃ key t, s.rk[k.toNat]? = some key ∧ exec (.encRound k) s = .next t ∧
    t.sR = addRoundKey (mixColumns (shiftRows (subBytes s.sR))) key ∧
    t.phase = s.phase ∧ t.cnt = k + 1 ∧ t.doneR = s.doneR ∧
    t.modeR = s.modeR ∧ t.rk = s.rk

/-- ENC_FINAL in every state answers a next state with s_r = AddRoundKey(ShiftRows(SubBytes(s_r)), rk[10]), (phase, cnt,
done_r) = (IDLE, 0, 1), busy 0, done 1 and dout = s_r; mode_r and rk unchanged. The operation is taken as selected,
whatever phase, cnt and mode_r are: the model's reading, log entry 9. (Rests on 43_cipher.md section 2 (round-step
operations); 44_core_control.md section 3 (round step, completion); 30_encoding.md section 1 (format RS)) -/
def Obligations.EncFinalRunsTheLastRoundAndCompletes : Prop :=
  ∀ (s : State), ∃ key t, s.rk[10]? = some key ∧ exec .encFinal s = .next t ∧
    t.sR = addRoundKey (shiftRows (subBytes s.sR)) key ∧
    t.phase = .idle ∧ t.cnt = 0 ∧ t.doneR = 1 ∧ t.busy = 0 ∧ t.done = 1 ∧ t.dout = some t.sR ∧
    t.modeR = s.modeR ∧ t.rk = s.rk

/-- DEC_INIT in every state answers a next state with s_r = InvSubBytes(InvShiftRows(AddRoundKey(s_r, rk[10]))) and cnt =
1; phase, mode_r, rk, done_r unchanged. The operation is taken as selected, whatever phase, cnt and mode_r are: the
model's reading, log entry 9. (Rests on 43_cipher.md section 2 (round-step operations); 44_core_control.md section 3
(round step, completion); 30_encoding.md section 1 (format RS)) -/
def Obligations.DecInitRunsTheFirstInverseRound : Prop :=
  ∀ (s : State), ∃ key t, s.rk[10]? = some key ∧ exec .decInit s = .next t ∧
    t.sR = invSubBytes (invShiftRows (addRoundKey s.sR key)) ∧
    t.phase = s.phase ∧ t.cnt = 1 ∧ t.doneR = s.doneR ∧
    t.modeR = s.modeR ∧ t.rk = s.rk

/-- For k in 1..9 and every state, DEC_ROUND k answers a next state with s_r =
InvSubBytes(InvShiftRows(InvMixColumns(AddRoundKey(s_r, rk[10-k])))) and cnt = k + 1; phase, mode_r, rk, done_r
unchanged. The operation is taken as selected, whatever phase, cnt and mode_r are: the model's reading, log entry 9.
(Rests on 43_cipher.md section 2 (round-step operations); 44_core_control.md section 3 (round step, completion);
30_encoding.md section 1 (format RS)) -/
def Obligations.DecRoundRunsOneMiddleInverseRound : Prop :=
  ∀ (k : BitVec 4) (s : State), 1 ≤ k → k ≤ 9 → ∃ key t, s.rk[10 - k.toNat]? = some key ∧ exec (.decRound k) s = .next t ∧
    t.sR = invSubBytes (invShiftRows (invMixColumns (addRoundKey s.sR key))) ∧
    t.phase = s.phase ∧ t.cnt = k + 1 ∧ t.doneR = s.doneR ∧
    t.modeR = s.modeR ∧ t.rk = s.rk

/-- DEC_FINAL in every state answers a next state with s_r = AddRoundKey(s_r, rk[0]), (phase, cnt, done_r) = (IDLE, 0, 1),
busy 0, done 1 and dout = s_r; mode_r and rk unchanged. The operation is taken as selected, whatever phase, cnt and
mode_r are: the model's reading, log entry 9. (Rests on 43_cipher.md section 2 (round-step operations);
44_core_control.md section 3 (round step, completion); 30_encoding.md section 1 (format RS)) -/
def Obligations.DecFinalAddsRoundKeyZeroAndCompletes : Prop :=
  ∀ (s : State), ∃ key t, s.rk[0]? = some key ∧ exec .decFinal s = .next t ∧
    t.sR = addRoundKey s.sR key ∧
    t.phase = .idle ∧ t.cnt = 0 ∧ t.doneR = 1 ∧ t.busy = 0 ∧ t.done = 1 ∧ t.dout = some t.sR ∧
    t.modeR = s.modeR ∧ t.rk = s.rk

/-- A step in phase RND is ENC_INIT, ENC_ROUND, ENC_FINAL, DEC_INIT, DEC_ROUND or DEC_FINAL as {mode_r, cnt} selects in
the table of format RS, and faults for cnt in 11..15. (Rests on 30_encoding.md section 1 (format RS);
44_core_control.md section 3 (round step)) -/
def Obligations.RoundPhaseRunsTheSelectedRound : Prop :=
  ∀ s : State, s.phase = .rnd →
    (s.modeR = 0 → s.cnt = 0 → exec .nop s = exec .encInit s) ∧
    (s.modeR = 0 → 1 ≤ s.cnt → s.cnt ≤ 9 → exec .nop s = exec (.encRound s.cnt) s) ∧
    (s.modeR = 0 → s.cnt = 10 → exec .nop s = exec .encFinal s) ∧
    (s.modeR = 1 → s.cnt = 0 → exec .nop s = exec .decInit s) ∧
    (s.modeR = 1 → 1 ≤ s.cnt → s.cnt ≤ 9 → exec .nop s = exec (.decRound s.cnt) s) ∧
    (s.modeR = 1 → s.cnt = 10 → exec .nop s = exec .decFinal s) ∧
    (11 ≤ s.cnt → exec .nop s = .fault (.unreachableControlState .rnd s.cnt))

/-- For every state, each of the six round steps leaves the unit ports as the chain of SEL operations of its datapath
leaves them and latches the last output in s_r; a unit outside the datapath is fed the same select (0 encrypting, 1
decrypting) and answers for the block at its d_in, which it keeps; the key unit keeps its ports; the host's inputs are
untouched. That ports are held in the state and that an unused d_in keeps its block is the model's choice (log entry
2). The operation is taken as selected, whatever phase, cnt and mode_r are: the model's reading, log entry 9. (Rests
on 43_cipher.md section 2 (round-step operations); 30_encoding.md section 1 (format SEL); 41_round_stages.md sections
1-4) -/
def Obligations.RoundStepsAreChainsOfStageOperations : Prop :=
  ∀ (s : State) (key : Block),
    (s.rk[0]? = some key → ∃ t u, exec .encInit s = .next t ∧
      runOps [.subBytes s.subyte.dIn, .shiftRows s.shiftrows.dIn, .mixColumns s.mixcolumns.dIn,
        .addRoundKey s.sR key] s = .next u ∧
      unitsKept u t ∧ hostKept s t ∧ t.sR = u.addroundkey.dOut) ∧
    (∀ k : BitVec 4, 1 ≤ k → k ≤ 9 → s.rk[k.toNat]? = some key → ∃ t u, exec (.encRound k) s = .next t ∧
      runOps [.subBytes s.sR, .shiftRows (subBytes s.sR), .mixColumns (shiftRows (subBytes s.sR)),
        .addRoundKey (mixColumns (shiftRows (subBytes s.sR))) key] s = .next u ∧
      unitsKept u t ∧ hostKept s t ∧ t.sR = u.addroundkey.dOut) ∧
    (s.rk[10]? = some key → ∃ t u, exec .encFinal s = .next t ∧
      runOps [.mixColumns s.mixcolumns.dIn, .subBytes s.sR, .shiftRows (subBytes s.sR),
        .addRoundKey (shiftRows (subBytes s.sR)) key] s = .next u ∧
      unitsKept u t ∧ hostKept s t ∧ t.sR = u.addroundkey.dOut) ∧
    (s.rk[10]? = some key → ∃ t u, exec .decInit s = .next t ∧
      runOps [.invMixColumns s.mixcolumns.dIn, .addRoundKey s.sR key, .invShiftRows (addRoundKey s.sR key),
        .invSubBytes (invShiftRows (addRoundKey s.sR key))] s = .next u ∧
      unitsKept u t ∧ hostKept s t ∧ t.sR = u.subyte.dOut) ∧
    (∀ k : BitVec 4, 1 ≤ k → k ≤ 9 → s.rk[10 - k.toNat]? = some key → ∃ t u, exec (.decRound k) s = .next t ∧
      runOps [.addRoundKey s.sR key, .invMixColumns (addRoundKey s.sR key),
        .invShiftRows (invMixColumns (addRoundKey s.sR key)),
        .invSubBytes (invShiftRows (invMixColumns (addRoundKey s.sR key)))] s = .next u ∧
      unitsKept u t ∧ hostKept s t ∧ t.sR = u.subyte.dOut) ∧
    (s.rk[0]? = some key → ∃ t u, exec .decFinal s = .next t ∧
      runOps [.invSubBytes s.subyte.dIn, .invShiftRows s.shiftrows.dIn, .invMixColumns s.mixcolumns.dIn,
        .addRoundKey s.sR key] s = .next u ∧
      unitsKept u t ∧ hostKept s t ∧ t.sR = u.addroundkey.dOut)

/-- RST in every state, the reserved ones too, answers a next state with (phase, cnt, done_r) = (IDLE, 0, 0), busy 0, done
0 and mode_r, s_r, rk unchanged; a second RST changes nothing; with rst = 1 the command is RST whatever start, mode,
key_in and din are. (spec rule R97) -/
def Obligations.RstResetsTheControlOnly : Prop :=
  (∀ s : State, ∃ t, exec .rst s = .next t ∧ t.phase = .idle ∧ t.cnt = 0 ∧ t.doneR = 0 ∧
    t.modeR = s.modeR ∧ t.sR = s.sR ∧ t.rk = s.rk ∧ t.busy = 0 ∧ t.done = 0) ∧
  (∀ s t : State, exec .rst s = .next t → exec .rst t = .next t) ∧
  (∀ s : State, s.inputs.rst = 1 → s.fetch = .rst)

/-- NOP in (IDLE, 0) answers the same state; in KEXP the step is the key step and in RND the round step that {mode_r, cnt}
selects; with rst = 0 and start = 0 the command is NOP whatever mode, key_in and din are. (spec rule R78) -/
def Obligations.NopLeavesAnIdleCoreAlone : Prop :=
  (∀ s : State, s.phase = .idle → s.cnt = 0 → exec .nop s = .next s) ∧
  (∀ s : State, s.phase = .kexp → exec .nop s = exec (.keyStep s.cnt) s) ∧
  (∀ (s : State) (op : Instr), s.phase = .rnd → decodeRs (s.modeR ++ s.cnt) = some op → exec .nop s = exec op s) ∧
  (∀ s : State, s.inputs.rst = 0 → s.inputs.start = 0 → s.fetch = .nop)

/-- ENC in (IDLE, 0), for every key and block, answers a next state with rk[0] = key_in, rk[1..10] unchanged, s_r = din,
mode_r = 0, (phase, cnt, done_r) = (KEXP, 1, 0), busy 1, done 0; rst = 0, start = 1, mode = 0 present ENC with key_in
and din. (spec rule R79) -/
def Obligations.EncIsAcceptedInIdle : Prop :=
  (∀ (k d : Block) (s : State), s.phase = .idle → s.cnt = 0 → ∃ t, exec (.enc k d) s = .next t ∧
    t.rk = s.rk.set 0 k ∧ t.sR = d ∧ t.modeR = 0 ∧ t.cnt = 1 ∧ t.phase = .kexp ∧ t.doneR = 0 ∧
    t.busy = 1 ∧ t.done = 0) ∧
  (∀ s : State, s.inputs.rst = 0 → s.inputs.start = 1 → s.inputs.mode = 0 →
    s.fetch = .enc s.inputs.keyIn s.inputs.din)

/-- DEC in (IDLE, 0), for every key and block, answers a next state with rk[0] = key_in, rk[1..10] unchanged, s_r = din,
mode_r = 1, (phase, cnt, done_r) = (KEXP, 1, 0), busy 1, done 0; rst = 0, start = 1, mode = 1 present DEC with key_in
and din. (spec rule R80) -/
def Obligations.DecIsAcceptedInIdle : Prop :=
  (∀ (k d : Block) (s : State), s.phase = .idle → s.cnt = 0 → ∃ t, exec (.dec k d) s = .next t ∧
    t.rk = s.rk.set 0 k ∧ t.sR = d ∧ t.modeR = 1 ∧ t.cnt = 1 ∧ t.phase = .kexp ∧ t.doneR = 0 ∧
    t.busy = 1 ∧ t.done = 0) ∧
  (∀ s : State, s.inputs.rst = 0 → s.inputs.start = 1 → s.inputs.mode = 1 →
    s.fetch = .dec s.inputs.keyIn s.inputs.din)

/-- In phase KEXP or RND, ENC and DEC with any operands give the outcome of NOP; and that outcome does not depend on what
stands at the input ports: other inputs only show in the inputs themselves. (spec rule R81) -/
def Obligations.ABusyCoreIgnoresCommands : Prop :=
  (∀ (k d : Block) (s : State), s.phase = .kexp ∨ s.phase = .rnd →
    exec (.enc k d) s = exec .nop s ∧ exec (.dec k d) s = exec .nop s) ∧
  (∀ (s : State) (i : HostInputs), s.phase = .kexp ∨ s.phase = .rnd →
    exec .nop { s with inputs := i } = mapNext (fun t => { t with inputs := i }) (exec .nop s))

/-- For every state: rst = 1 runs RST; else IDLE with cnt != 0 faults; IDLE runs NOP, ENC or DEC by start and mode; KEXP
with cnt in 1..10 runs the key step and RND with cnt in 0..10 the selected round step, whatever start and mode; any
other control state faults. (spec rule R77) -/
def Obligations.StepDispatchFollowsThePriorityOfItsLines : Prop :=
  ∀ s : State,
    (s.inputs.rst = 1 → exec s.fetch s = exec .rst s) ∧
    (s.inputs.rst = 0 → s.phase = .idle → s.cnt ≠ 0 →
      exec s.fetch s = .fault (.unreachableControlState s.phase s.cnt)) ∧
    (s.inputs.rst = 0 → s.phase = .idle → s.cnt = 0 → s.inputs.start = 0 → exec s.fetch s = exec .nop s) ∧
    (s.inputs.rst = 0 → s.phase = .idle → s.cnt = 0 → s.inputs.start = 1 → s.inputs.mode = 0 →
      exec s.fetch s = exec (.enc s.inputs.keyIn s.inputs.din) s) ∧
    (s.inputs.rst = 0 → s.phase = .idle → s.cnt = 0 → s.inputs.start = 1 → s.inputs.mode = 1 →
      exec s.fetch s = exec (.dec s.inputs.keyIn s.inputs.din) s) ∧
    (s.inputs.rst = 0 → s.phase = .kexp → 1 ≤ s.cnt → s.cnt ≤ 10 → exec s.fetch s = exec (.keyStep s.cnt) s) ∧
    (s.inputs.rst = 0 → s.phase = .rnd → s.cnt ≤ 10 →
      ∃ op, decodeRs (s.modeR ++ s.cnt) = some op ∧ exec s.fetch s = exec op s) ∧
    (s.inputs.rst = 0 → s.phase = .reserved ∨ (s.phase = .kexp ∧ (s.cnt = 0 ∨ 11 ≤ s.cnt)) ∨
        (s.phase = .rnd ∧ 11 ≤ s.cnt) →
      exec s.fetch s = .fault (.unreachableControlState s.phase s.cnt))

/-- step s is exec of the command sampled from the input ports, which is well formed; around it the model has the host
present the next input of its script, and free values after the script (the model's choice, log entries 3 and 4); a
fault of exec is that of step, and no sampled command is refused. (Rests on 44_core_control.md section 1 (the step
function); 00_scope.md section 6 (Step)) -/
def Obligations.StepRunsTheSampledCommand : Prop :=
  (∀ (s t : State), exec s.fetch s = .next t → step s = .next t.presentNext) ∧
  (∀ (s : State) (f : Fault), exec s.fetch s = .fault f → step s = .fault f) ∧
  (∀ (s : State) (r : Refusal), exec s.fetch s ≠ .refused r) ∧
  (∀ (s : State) (i : HostInputs) (rest : List HostInputs), s.script = i :: rest →
    s.presentNext = { s with inputs := i, script := rest }) ∧
  (∀ s : State, s.script = [] →
    s.presentNext = { s with inputs := freeInputs s.drawn, drawn := s.drawn + 1 }) ∧
  (∀ s : State, s.fetch.wf = true)

/-- Format CMD: 1-- is RST, 00- NOP, 010 ENC and 011 DEC with key_in and din as operands; the core decodes {rst, start,
mode} in every phase the same way. (spec rule R36) -/
def Obligations.CmdVectorDecodesByItsTable : Prop :=
  (∀ (st m : Bit) (k d : Block), decodeCmd (1#1 ++ st ++ m) k d = .rst) ∧
  (∀ (m : Bit) (k d : Block), decodeCmd (0#1 ++ 0#1 ++ m) k d = .nop) ∧
  (∀ k d : Block, decodeCmd (0#1 ++ 1#1 ++ 0#1) k d = .enc k d) ∧
  (∀ k d : Block, decodeCmd (0#1 ++ 1#1 ++ 1#1) k d = .dec k d) ∧
  (∀ s : State, s.fetch = decodeCmd (s.inputs.rst ++ s.inputs.start ++ s.inputs.mode) s.inputs.keyIn s.inputs.din)

/-- One or more vectors of each format, written bit by bit from the tables of 30_encoding.md, decode to the operation of
their row, and reserved ones are rejected by name. The byte form of control bits and operands is the model's (log
entry 7). (Rests on 30_encoding.md section 1 (formats CMD, SEL, KX, RS)) -/
def Obligations.SpecWordsDecode : Prop :=
  (∀ k d : Block, decode .cmd (0b010 :: twoBlocks k d) = .ok (.enc k d) []) ∧
  (∀ k d : Block, decode .cmd (0b110 :: twoBlocks k d) = .ok .rst []) ∧
  (∀ d : Block, decode .subyte (0b0 :: blockBytes d) = .ok (.subBytes d) []) ∧
  (∀ d : Block, decode .shiftrows (0b1 :: blockBytes d) = .ok (.invShiftRows d) []) ∧
  (∀ d : Block, decode .mixcolumns (0b1 :: blockBytes d) = .ok (.invMixColumns d) []) ∧
  (∀ d k : Block, decode .addroundkey (twoBlocks d k) = .ok (.addRoundKey d k) []) ∧
  decode .kx [0b1010] = .ok (.keyStep 10) [] ∧ decode .kx [0b1011] = .rejected .reservedKx ∧
  decode .rs [0b00000] = .ok .encInit [] ∧ decode .rs [0b01001] = .ok (.encRound 9) [] ∧
  decode .rs [0b01010] = .ok .encFinal [] ∧ decode .rs [0b10000] = .ok .decInit [] ∧
  decode .rs [0b10001] = .ok (.decRound 1) [] ∧ decode .rs [0b11010] = .ok .decFinal [] ∧
  decode .rs [0b11011] = .rejected .reservedRs

/-- For every well-formed operation of the table, with every operand value, and whatever bytes follow: the decoder at the
operation's selection point reads the operation back from its encoding. The byte form is the model's (log entry 7).
(Rests on 30_encoding.md section 1 (formats CMD, SEL, KX, RS); 30_encoding.md section 2 (operand assembly)) -/
def Obligations.DecodeUndoesEncode : Prop :=
  ∀ (i : Instr) (rest : List Byte), i.wf = true → decode i.point (encode i ++ rest) = .ok i rest

/-- For every selection point and every list of bytes, an operation the decoder answers is well formed and belongs to the
point: no reserved encoding falls through to a neighbour. The byte form is the model's (log entry 7). (Rests on
30_encoding.md section 1; 30_encoding.md section 3 (reserved encodings)) -/
def Obligations.DecoderAnswersOnlyWellFormedOperationsOfItsPoint : Prop :=
  ∀ (p : Point) (bs : List Byte) (i : Instr) (rest : List Byte), decode p bs = .ok i rest → i.wf = true ∧ i.point = p

/-- The reserved KX vectors are exactly 0 and 11..15, the reserved RS vectors exactly those with cnt in 11..15, and every
other vector is the encoding of the operation it decodes to. The byte in which the encoding holds the vector is the
model's (log entry 7). (Rests on 30_encoding.md section 1 (formats KX, RS); 30_encoding.md section 3 (reserved
encodings)) -/
def Obligations.KxAndRsVectorsHaveOneMeaning : Prop :=
  (∀ i : BitVec 4, (decodeKx i = none ↔ i = 0 ∨ 11 ≤ i) ∧
    ∀ op, decodeKx i = some op → op.point = .kx ∧ encode op = [0#4 ++ i]) ∧
  (∀ rs : BitVec 5, (decodeRs rs = none ↔ 11 ≤ rs.extractLsb' 0 4) ∧
    ∀ op, decodeRs rs = some op → op.point = .rs ∧ encode op = [0#3 ++ rs])

/-- busy = (phase != IDLE), done = done_r, dout = s_r while done_r = 1; while done_r = 0 the model gives dout no value
(log entry 11: the spec calls it unspecified). (Rests on 10_state.md section 1 (output ports)) -/
def Obligations.OutputsAreFunctionsOfTheState : Prop :=
  ∀ s : State, (s.busy = 1 ↔ s.phase ≠ .idle) ∧ s.done = s.doneR ∧
    (s.doneR = 1 → s.dout = some s.sR) ∧ (s.doneR = 0 → s.dout = none)

/-- State.reset has phase IDLE, cnt 0, done_r 0, outputs busy 0, done 0, no dout (log entry 11), and RST leaves it as it
is. Nothing is said of the registers to which reset gives no value (log entry 1). (Rests on 10_state.md section 3
(reset and power-up values); 70_reset_and_hazards.md section 1) -/
def Obligations.ResetStateIsIdle : Prop :=
  State.reset.phase = .idle ∧ State.reset.cnt = 0 ∧ State.reset.doneR = 0 ∧ State.reset.busy = 0 ∧ State.reset.done = 0 ∧
  State.reset.dout = none ∧ exec .rst State.reset = .next State.reset

/-- For every state, a step faults if and only if rst = 0 and (phase, cnt) is reserved (phase 11, IDLE with cnt != 0, KEXP
with cnt in 0, 11..15, RND with cnt in 11..15), and then with that phase and cnt; no step is refused. (Rests on
60_exceptions.md section 1 (UnreachableControlState); 44_core_control.md section 1) -/
def Obligations.ReservedControlStatesFaultAndOnlyThey : Prop :=
  (∀ (s : State) (f : Fault), step s = .fault f ↔
    s.inputs.rst = 0 ∧ ¬ s.legal ∧ f = .unreachableControlState s.phase s.cnt) ∧
  (∀ (s : State) (r : Refusal), step s ≠ .refused r)

/-- An RS vector with cnt in 11..15 is no operation, and ENC_ROUND or DEC_ROUND with such an index raises
UnreachableControlState(RND, index), in any state; the same for 0 and 10, which no RS vector decodes to. That these
operations run in any state is log entry 9; the fault for 0 and 10, and phase RND in the fault outside that phase, are
the model's choice, log entry 10. (Rests on 60_exceptions.md section 1 (UnreachableControlState); 30_encoding.md
section 1 (format RS)) -/
def Obligations.RoundOperationsOutsideTheirRangeFault : Prop :=
  (∀ (k : BitVec 4) (s : State), k = 0 ∨ 10 ≤ k →
    exec (.encRound k) s = .fault (.unreachableControlState .rnd k) ∧
    exec (.decRound k) s = .fault (.unreachableControlState .rnd k)) ∧
  (∀ (m : Bit) (k : BitVec 4), 11 ≤ k → decodeRs (m ++ k) = none)

/-- With rst = 1, whatever start is, a step from any state answers (IDLE, 0) with done = 0 and no dout: a running
operation is aborted without a result, a command presented in the same step is not accepted, and mode_r, s_r, rk keep
their bits. That dout then has no value is the model's choice (log entry 11): the spec calls it unspecified. (Rests on
44_core_control.md section 1; 70_reset_and_hazards.md sections 1 and 3; 95_test_vectors.md section 2.8 (row 2.8.18)) -/
def Obligations.ResetRecoversFromEveryState : Prop :=
  ∀ s : State, s.inputs.rst = 1 → ∃ t, step s = .next t ∧ t.phase = .idle ∧ t.cnt = 0 ∧ t.doneR = 0 ∧
    t.dout = none ∧ t.modeR = s.modeR ∧ t.sR = s.sR ∧ t.rk = s.rk

/-- RST, and NOP in IDLE, leave all unit ports; an accepted ENC or DEC feeds the select inputs of the three units the new
mode_r, for which they answer on the block at their d_in, and leaves the other ports; a SEL operation drives its own
unit and no other; a key step drives only the key unit, whose next is what rk[i] receives; none of them changes the
host's inputs. These fields are the model's own (log entries 2, 3, 4), and KEYSTEP is taken as selected (log entry 9).
(Rests on 10_state.md section 2 (internal registers); 41_round_stages.md introduction; 44_core_control.md sections 2
and 3) -/
def Obligations.CommandsAndStagesKeepTheRestOfTheState : Prop :=
  (∀ s t : State, exec .rst s = .next t → unitsKept s t ∧ hostKept s t) ∧
  (∀ (k d : Block) (s : State), s.phase = .idle → s.cnt = 0 →
    (∀ t, exec .nop s = .next t → unitsKept s t ∧ hostKept s t) ∧
    (∀ t, exec (.enc k d) s = .next t → selectsFed 0 s t ∧ hostKept s t) ∧
    (∀ t, exec (.dec k d) s = .next t → selectsFed 1 s t ∧ hostKept s t)) ∧
  (∀ (d : Block) (s t : State), exec (.subBytes d) s = .next t ∨ exec (.invSubBytes d) s = .next t →
    hostKept s t ∧ t.shiftrows = s.shiftrows ∧ t.mixcolumns = s.mixcolumns ∧ t.addroundkey = s.addroundkey ∧
    t.keyExpand = s.keyExpand) ∧
  (∀ (d : Block) (s t : State), exec (.shiftRows d) s = .next t ∨ exec (.invShiftRows d) s = .next t →
    hostKept s t ∧ t.subyte = s.subyte ∧ t.mixcolumns = s.mixcolumns ∧ t.addroundkey = s.addroundkey ∧
    t.keyExpand = s.keyExpand) ∧
  (∀ (d : Block) (s t : State), exec (.mixColumns d) s = .next t ∨ exec (.invMixColumns d) s = .next t →
    hostKept s t ∧ t.subyte = s.subyte ∧ t.shiftrows = s.shiftrows ∧ t.addroundkey = s.addroundkey ∧
    t.keyExpand = s.keyExpand) ∧
  (∀ (d k : Block) (s t : State), exec (.addRoundKey d k) s = .next t →
    hostKept s t ∧ t.subyte = s.subyte ∧ t.shiftrows = s.shiftrows ∧ t.mixcolumns = s.mixcolumns ∧
    t.keyExpand = s.keyExpand) ∧
  (∀ (i : BitVec 4) (s t : State), exec (.keyStep i) s = .next t →
    hostKept s t ∧ t.subyte = s.subyte ∧ t.shiftrows = s.shiftrows ∧ t.mixcolumns = s.mixcolumns ∧
    t.addroundkey = s.addroundkey ∧ t.keyExpand.i = i ∧ t.rk[i.toNat]? = some t.keyExpand.next)

/-- If (phase, cnt) is (IDLE, 0), (KEXP, 1..10) or (RND, 0..10), then a step answers a next state, whatever the host
drives, and its (phase, cnt) is again one of these. (Rests on 44_core_control.md section 4 (fixed sequence);
10_state.md section 2) -/
def Obligations.EveryStepKeepsTheControlLegal : Prop :=
  ∀ s : State, s.legal → (∃ t, step s = .next t) ∧ ∀ t, step s = .next t → t.legal

/-- State.reset has a legal control state, busy and done not both 1, units that answer their inputs and select inputs at
mode_r (log entries 1 and 2) and no schedule entry out of place. (Rests on 10_state.md section 3;
70_reset_and_hazards.md section 1) -/
def Obligations.ResetMeetsTheInvariants : Prop :=
  State.reset.legal ∧ State.reset.flagsExclusive ∧ State.reset.unitsAnswer ∧
  State.reset.selectsTied ∧ State.reset.scheduleHeld

/-- From every legal state a step with rst = 0 advances (phase, cnt) by exactly one position of the path (IDLE,0) ->
(KEXP,1..10) -> (RND,0..10) -> (IDLE,0), staying in IDLE without start; done_r is set by the last round step, cleared
by an accept and otherwise kept. (Rests on 44_core_control.md section 4 (fixed sequence)) -/
def Obligations.ControlFollowsTheFixedPath : Prop :=
  ∀ s t : State, s.legal → s.inputs.rst = 0 → step s = .next t →
    (t.phase, t.cnt) = nextPosition s.inputs.start s.phase s.cnt ∧
    t.doneR = (if s.phase = .rnd ∧ s.cnt = 10 then 1 else if s.phase = .idle ∧ s.inputs.start = 1 then 0 else s.doneR)

/-- For every state in which busy and done are not both 1, whatever the control state and the inputs, they are not both 1
after a step. (Rests on 10_state.md section 3 (flags)) -/
def Obligations.EveryStepKeepsBusyAndDoneExclusive : Prop :=
  ∀ s t : State, s.flagsExclusive → step s = .next t → t.flagsExclusive

/-- If each of the five combinational units shows on its output the function of its inputs, it does so after any step. If
the select input of each of the three units that have one carries mode_r, it does so after any step, through an
accept, which changes mode_r, too. That ports are held in the state is the model's choice (log entry 2). (Rests on
30_encoding.md section 1 (format SEL); 41_round_stages.md sections 1-4 (interfaces); 42_key_expand.md section 1 (step-
unit interface); 70_reset_and_hazards.md section 4) -/
def Obligations.EveryStepKeepsTheUnitsAnswering : Prop :=
  (∀ s t : State, s.unitsAnswer → step s = .next t → t.unitsAnswer) ∧
  (∀ s t : State, s.selectsTied → step s = .next t → t.selectsTied)

/-- If in a legal state the entries the running operation has written (rk[0..cnt-1] in KEXP, all eleven in RND) are those
of ExpandKey(rk[0]), the same holds after any step; so after the tenth key step rk[0..10] = ExpandKey(K). (Rests on
42_key_expand.md section 3 (full schedule); 44_core_control.md section 3 (key step)) -/
def Obligations.EveryStepKeepsTheScheduleOfTheRunningKey : Prop :=
  ∀ s t : State, s.legal → s.scheduleHeld → step s = .next t → t.scheduleHeld

/-- RK[0] = K and RK[i] = KeyStep(RK[i-1], i) for i in 1..10, for every key. (Rests on 42_key_expand.md section 3 (full
schedule and schedule laws)) -/
def Obligations.ExpandKeyChainsTheKeySteps : Prop :=
  ∀ k : Block, (expandKey k)[0] = k ∧
    ∀ i : Nat, 1 ≤ i → i ≤ 10 → ∃ p n, (expandKey k)[i - 1]? = some p ∧ (expandKey k)[i]? = some n ∧
      keyStep p (BitVec.ofNat 4 i) = some n

/-- From every idle state, whatever its registers hold: if a command with mode m, key k and block d is presented and the
21 inputs after it, otherwise arbitrary, hold rst = 0, then the states after steps 1..21 are busy with done = 0, and
after step 22 busy = 0, done = 1 and dout = Encrypt(d, k) if m = 0, Decrypt(d, k) if m = 1. (Rests on
44_core_control.md section 4 (transaction contract); 70_reset_and_hazards.md section 4 (timing)) -/
def Obligations.AnAcceptedCommandIsAnsweredAfter22Steps : Prop :=
  ∀ (s : State) (m : Bit) (k d : Block), s.phase = .idle → s.cnt = 0 →
    s.inputs = { rst := 0, start := 1, mode := m, keyIn := k, din := d } →
    21 ≤ s.script.length → noReset (s.script.take 21) →
    (∃ t, runSteps Config.latencySteps s = .next t ∧ t.busy = 0 ∧ t.done = 1 ∧
      t.dout = some (if m = 0 then encrypt d k else decrypt d k)) ∧
    (∀ n, 1 ≤ n → n ≤ 21 → ∃ u, runSteps n s = .next u ∧ u.busy = 1 ∧ u.done = 0)

/-- For every 128-bit block P and key K, Decrypt(Encrypt(P, K), K) = P. (spec rule R69) -/
def Obligations.DecryptUndoesEncrypt : Prop :=
  ∀ p k : Block, decrypt (encrypt p k) k = p

/-- For every 128-bit block C and key K, Encrypt(Decrypt(C, K), K) = C, which the spec marks as its inference ("also
holds, because each of the functions is a composition of bijections"). (Rests on 43_cipher.md section 1 (round trip)) -/
def Obligations.EncryptUndoesDecrypt : Prop :=
  ∀ c k : Block, encrypt (decrypt c k) k = c

/-- With rk = ExpandKey(K): ENC_INIT, ENC_ROUND 1..9, ENC_FINAL on s_r = P leave Encrypt(P, K) in s_r; DEC_INIT, DEC_ROUND
1..9, DEC_FINAL on s_r = C leave Decrypt(C, K); and from C = Encrypt(P, K) the s_r after decrypt step j is the s_r
after encrypt step 9-j, and P after the last step. None of these operations stops. The operations are taken as
selected (log entry 9). (Rests on 43_cipher.md section 2 (round-sequence laws)) -/
def Obligations.RoundStepsComputeTheBlockFunctionsAndMirror : Prop :=
  ∀ (s : State) (p k : Block), s.rk = expandKey k →
    blockAfter (runOps encryptOps { s with sR := p }) = some (encrypt p k) ∧
    blockAfter (runOps decryptOps { s with sR := p }) = some (decrypt p k) ∧
    (∀ j ≤ 9, ∃ b, blockAfter (runOps (decryptSteps j) { s with sR := encrypt p k }) = some b ∧
      blockAfter (runOps (encryptSteps (9 - j)) { s with sR := p }) = some b) ∧
    blockAfter (runOps decryptOps { s with sR := encrypt p k }) = some p

/-- Two idle states that present the same command but may differ in every register and in what the host drives in the 21
steps after (without reset) show the same dout after 22 steps: nothing left from an earlier operation and no later
input reaches the result. (Rests on 10_state.md section 3 (hidden state); 70_reset_and_hazards.md section 3 (operand
sampling)) -/
def Obligations.TheResultDependsOnTheSampledOperandsOnly : Prop :=
  ∀ s u : State, s.phase = .idle → s.cnt = 0 → u.phase = .idle → u.cnt = 0 →
    s.inputs = u.inputs → s.inputs.rst = 0 → s.inputs.start = 1 →
    21 ≤ s.script.length → noReset (s.script.take 21) → 21 ≤ u.script.length → noReset (u.script.take 21) →
    ∃ t v, runSteps Config.latencySteps s = .next t ∧ runSteps Config.latencySteps u = .next v ∧
      t.done = 1 ∧ v.done = 1 ∧ t.dout = v.dout ∧ t.dout ≠ none

/-- Two states that agree on phase, cnt, done_r and on the rst and start the host drives, and may differ in everything
else (keys, data, mode, registers), agree on phase, cnt and done_r after any number of scripted steps, and stop
together if they stop. (Rests on 70_reset_and_hazards.md section 4 (timing); 44_core_control.md section 4 (fixed
sequence)) -/
def Obligations.ControlTimingIsIndependentOfKeysAndData : Prop :=
  ∀ (n : Nat) (s u : State), s.phase = u.phase → s.cnt = u.cnt → s.doneR = u.doneR →
    s.inputs.rst = u.inputs.rst → s.inputs.start = u.inputs.start →
    s.script.map (fun i => (i.rst, i.start)) = u.script.map (fun i => (i.rst, i.start)) →
    n ≤ s.script.length + 1 →
    controlOf (runSteps n s) = controlOf (runSteps n u)

/-- From an idle state, n steps in which the host drives rst = 0 and start = 0 change no register and no output, for every
n: the result stays on dout until the next accepted command or reset. While done = 0 dout has no value, before and
after (log entry 11). (Rests on 20_memory.md section 4 (host-core synchronisation); 70_reset_and_hazards.md section 3
(result lifetime)) -/
def Obligations.AnIdleCoreHoldsItsResult : Prop :=
  ∀ (n : Nat) (s : State), s.phase = .idle → s.cnt = 0 → s.inputs.rst = 0 → s.inputs.start = 0 →
    (∀ i ∈ s.script.take (n - 1), i.rst = 0 ∧ i.start = 0) → n ≤ s.script.length + 1 →
    ∃ t, runSteps n s = .next t ∧ registersKept s t ∧ t.busy = s.busy ∧ t.done = s.done ∧ t.dout = s.dout

/-- ENCRYPT key, data (ENC and 21 NOPs) on an idle core ends with busy = 0, done = 1 and dout = Encrypt(data, key);
DECRYPT key, data with dout = Decrypt(data, key); the don't-care operands x are arbitrary. (Rests on 30_encoding.md
section 4 (assembly syntax, pseudo-instructions)) -/
def Obligations.EncryptAndDecryptPseudoInstructionsDeliver : Prop :=
  ∀ (s : State) (x : Block × Block) (key data : Block), s.phase = .idle → s.cnt = 0 →
    (∃ t, runSteps 22 (s.load (AsmLine.expand x (.encrypt key data))) = .next t ∧
      t.checks 0 1 (some (encrypt data key)) = true) ∧
    (∃ t, runSteps 22 (s.load (AsmLine.expand x (.decrypt key data))) = .next t ∧
      t.checks 0 1 (some (decrypt data key)) = true)

/-- WAITDONE (NOP repeated while done = 0) takes no step in a state with done = 1, and from every busy legal state it ends
within 21 steps in a state with done = 1. (Rests on 30_encoding.md section 4 (pseudo-instructions);
70_reset_and_hazards.md section 3) -/
def Obligations.WaitDoneEndsAtTheCompletion : Prop :=
  (∀ (s : State) (x : Block × Block) (n : Nat), s.done = 1 → waitDone x n s = .next s) ∧
  (∀ (s : State) (x : Block × Block), s.legal → s.busy = 1 → ∃ t, waitDone x 21 s = .next t ∧ t.done = 1)

/-- Format SEL: at subyte_stage, shiftrows_stage and mixcolumns_stage inv = 0 decodes to the forward and inv = 1 to the
inverse operation; addroundkey_stage selects ADDROUNDKEY and nothing else. Every step in phase RND with cnt in 0..10
leaves the inv of all three units, the bypassed ones too, at mode_r. That inv is held in the state is the model's
choice (log entry 2); its value is the rule's. (spec rule R37) -/
def Obligations.EverySelectInputIsDrivenByTheMode : Prop :=
  (∀ d : Block, decodeSubyte 0 d = .subBytes d ∧ decodeSubyte 1 d = .invSubBytes d ∧
    decodeShiftrows 0 d = .shiftRows d ∧ decodeShiftrows 1 d = .invShiftRows d ∧
    decodeMixcolumns 0 d = .mixColumns d ∧ decodeMixcolumns 1 d = .invMixColumns d) ∧
  (∀ i : Instr, i.point = .addroundkey ↔ ∃ d k : Block, i = .addRoundKey d k) ∧
  (∀ s : State, s.phase = .rnd → s.cnt ≤ 10 → ∃ t, exec .nop s = .next t ∧ t.selectsAt s.modeR)
end

