-- ==== Sys2Proof/Laws/Operands.lean ====
section
/-! SUPPORT. The byte, word and block views of a 128-bit value agree: each can be read back from the others, and two blocks
with the same sixteen bytes are one block. -/

namespace Sys2Proof.Machine

/-- Byte `n` of the block made of `f` is `f n`. -/
theorem byteOf_blockOf (f : Nat → Byte) {n : Nat} (h : n < 16) : byteOf (blockOf f) n = f n := by
  unfold byteOf blockOf
  interval_cases n <;>
    (ext i hi; simp only [BitVec.getElem_extractLsb', BitVec.getLsbD_append]; interval_cases i <;> simp)

/-- Bit `k` of byte `n` is bit 120-8n+k of the block. -/
theorem getLsbD_byteOf (b : Block) (n k : Nat) (hk : k < 8) :
    (byteOf b n).getLsbD k = b.getLsbD (120 - 8 * n + k) := by
  simp [byteOf, hk]

/-- Two blocks with the same sixteen bytes are equal. -/
theorem block_ext {a b : Block} (h : ∀ n < 16, byteOf a n = byteOf b n) : a = b := by
  apply BitVec.eq_of_getLsbD_eq
  intro i hi
  have hb := congrArg (·.getLsbD (i % 8)) (h (15 - i / 8) (by omega))
  have h8 : i % 8 < 8 := Nat.mod_lt _ (by omega)
  have hidx : 120 - 8 * (15 - i / 8) + i % 8 = i := by omega
  simpa [getLsbD_byteOf _ _ _ h8, hidx] using hb

/-- The block made of the bytes of a block is that block. -/
@[simp] theorem blockOf_byteOf (b : Block) : blockOf (byteOf b) = b :=
  block_ext fun _ hn => byteOf_blockOf _ hn

/-- Two blocks made of functions that agree on 0..15 are equal. -/
theorem blockOf_congr {f g : Nat → Byte} (h : ∀ n < 16, f n = g n) : blockOf f = blockOf g :=
  block_ext fun n hn => by rw [byteOf_blockOf f hn, byteOf_blockOf g hn, h n hn]

/-- Byte `n` of a sum of blocks. -/
@[simp] theorem byteOf_xor (a b : Block) (n : Nat) : byteOf (a ^^^ b) n = byteOf a n ^^^ byteOf b n := by
  ext i hi; simp [byteOf]

/-- Byte `m` of a word. -/
def wordByte (w : Word) (m : Nat) : Byte :=
  match m with
  | 0 => w.b0
  | 1 => w.b1
  | 2 => w.b2
  | _ => w.b3

/-- Byte `n` of the block made of four words is byte `n mod 4` of word `n div 4`. -/
theorem byteOf_blockOfWords (w : Fin 4 → Word) (j m : Fin 4) :
    byteOf (blockOfWords (w 0) (w 1) (w 2) (w 3)) (4 * j + m) = wordByte (w j) m := by
  unfold byteOf blockOfWords wordBits wordByte
  fin_cases j <;> fin_cases m <;>
    (ext i hi; simp only [BitVec.getElem_extractLsb', BitVec.getLsbD_append]; interval_cases i <;> simp)

/-- Word `j` of the block made of four words. -/
theorem wordOf_blockOfWords (w : Fin 4 → Word) (j : Fin 4) :
    wordOf (blockOfWords (w 0) (w 1) (w 2) (w 3)) j = w j := by
  have h := byteOf_blockOfWords w j
  have h0 : byteOf (blockOfWords (w 0) (w 1) (w 2) (w 3)) (4 * j) = (w j).b0 := h 0
  have h1 : byteOf (blockOfWords (w 0) (w 1) (w 2) (w 3)) (4 * j + 1) = (w j).b1 := h 1
  have h2 : byteOf (blockOfWords (w 0) (w 1) (w 2) (w 3)) (4 * j + 2) = (w j).b2 := h 2
  have h3 : byteOf (blockOfWords (w 0) (w 1) (w 2) (w 3)) (4 * j + 3) = (w j).b3 := h 3
  rw [wordOf, h0, h1, h2, h3]

@[simp] theorem wordOf_blockOfWords_0 (a b c d : Word) : wordOf (blockOfWords a b c d) 0 = a :=
  wordOf_blockOfWords ![a, b, c, d] 0
@[simp] theorem wordOf_blockOfWords_1 (a b c d : Word) : wordOf (blockOfWords a b c d) 1 = b :=
  wordOf_blockOfWords ![a, b, c, d] 1
@[simp] theorem wordOf_blockOfWords_2 (a b c d : Word) : wordOf (blockOfWords a b c d) 2 = c :=
  wordOf_blockOfWords ![a, b, c, d] 2
@[simp] theorem wordOf_blockOfWords_3 (a b c d : Word) : wordOf (blockOfWords a b c d) 3 = d :=
  wordOf_blockOfWords ![a, b, c, d] 3

/-- The block made of the words of a block is that block. -/
@[simp] theorem blockOfWords_wordOf (b : Block) :
    blockOfWords (wordOf b 0) (wordOf b 1) (wordOf b 2) (wordOf b 3) = b := by
  apply block_ext
  intro n hn
  have hj : n / 4 < 4 := by omega
  have hm : n % 4 < 4 := by omega
  have h := byteOf_blockOfWords (fun j => wordOf b j) ⟨n / 4, hj⟩ ⟨n % 4, hm⟩
  have hn' : 4 * (n / 4) + n % 4 = n := by omega
  simp only [hn', Fin.val_zero, Fin.val_one, Fin.val_two] at h
  refine h.trans ?_
  clear h
  interval_cases n <;> rfl

/-- Reading sixteen operand bytes back gives the block, whatever follows them. -/
theorem takeBlock_blockBytes (b : Block) (rest : List Byte) : takeBlock (blockBytes b ++ rest) = some (b, rest) :=
  congrArg (fun v => some (v, rest)) (blockOf_byteOf b)

/-- A block has sixteen operand bytes. -/
@[simp] theorem length_blockBytes (b : Block) : (blockBytes b).length = 16 := rfl

end Sys2Proof.Machine
end

