-- ==== Sys2Proof/Laws/State.lean ====
section
/-! SUPPORT. One lemma per field per update of the state, each true by rfl, so that no later proof unfolds a record update;
then the same for the two updates that choose between two records (`advanceKey`, `presentNext`) and for the chains of a
round step. -/

namespace Sys2Proof.Machine

variable (s : State)

section resetControl
@[simp] theorem State.resetControl_phase : (s.resetControl).phase = Phase.idle := rfl
@[simp] theorem State.resetControl_cnt : (s.resetControl).cnt = 0 := rfl
@[simp] theorem State.resetControl_modeR : (s.resetControl).modeR = s.modeR := rfl
@[simp] theorem State.resetControl_sR : (s.resetControl).sR = s.sR := rfl
@[simp] theorem State.resetControl_rk : (s.resetControl).rk = s.rk := rfl
@[simp] theorem State.resetControl_doneR : (s.resetControl).doneR = 0 := rfl
@[simp] theorem State.resetControl_subyte : (s.resetControl).subyte = s.subyte := rfl
@[simp] theorem State.resetControl_shiftrows : (s.resetControl).shiftrows = s.shiftrows := rfl
@[simp] theorem State.resetControl_mixcolumns : (s.resetControl).mixcolumns = s.mixcolumns := rfl
@[simp] theorem State.resetControl_addroundkey : (s.resetControl).addroundkey = s.addroundkey := rfl
@[simp] theorem State.resetControl_keyExpand : (s.resetControl).keyExpand = s.keyExpand := rfl
@[simp] theorem State.resetControl_inputs : (s.resetControl).inputs = s.inputs := rfl
@[simp] theorem State.resetControl_script : (s.resetControl).script = s.script := rfl
@[simp] theorem State.resetControl_drawn : (s.resetControl).drawn = s.drawn := rfl
end resetControl

section driveSelects
variable (inv : Bit)
@[simp] theorem State.driveSelects_phase : (s.driveSelects inv).phase = s.phase := rfl
@[simp] theorem State.driveSelects_cnt : (s.driveSelects inv).cnt = s.cnt := rfl
@[simp] theorem State.driveSelects_modeR : (s.driveSelects inv).modeR = s.modeR := rfl
@[simp] theorem State.driveSelects_sR : (s.driveSelects inv).sR = s.sR := rfl
@[simp] theorem State.driveSelects_rk : (s.driveSelects inv).rk = s.rk := rfl
@[simp] theorem State.driveSelects_doneR : (s.driveSelects inv).doneR = s.doneR := rfl
@[simp] theorem State.driveSelects_subyte : (s.driveSelects inv).subyte =
    ⟨s.subyte.dIn, inv, subyteStage inv s.subyte.dIn⟩ := rfl
@[simp] theorem State.driveSelects_shiftrows : (s.driveSelects inv).shiftrows =
    ⟨s.shiftrows.dIn, inv, shiftrowsStage inv s.shiftrows.dIn⟩ := rfl
@[simp] theorem State.driveSelects_mixcolumns : (s.driveSelects inv).mixcolumns =
    ⟨s.mixcolumns.dIn, inv, mixcolumnsStage inv s.mixcolumns.dIn⟩ := rfl
@[simp] theorem State.driveSelects_addroundkey : (s.driveSelects inv).addroundkey = s.addroundkey := rfl
@[simp] theorem State.driveSelects_keyExpand : (s.driveSelects inv).keyExpand = s.keyExpand := rfl
@[simp] theorem State.driveSelects_inputs : (s.driveSelects inv).inputs = s.inputs := rfl
@[simp] theorem State.driveSelects_script : (s.driveSelects inv).script = s.script := rfl
@[simp] theorem State.driveSelects_drawn : (s.driveSelects inv).drawn = s.drawn := rfl
end driveSelects

section bypassMixcolumns
variable (inv : Bit)
@[simp] theorem State.bypassMixcolumns_phase : (s.bypassMixcolumns inv).phase = s.phase := rfl
@[simp] theorem State.bypassMixcolumns_cnt : (s.bypassMixcolumns inv).cnt = s.cnt := rfl
@[simp] theorem State.bypassMixcolumns_modeR : (s.bypassMixcolumns inv).modeR = s.modeR := rfl
@[simp] theorem State.bypassMixcolumns_sR : (s.bypassMixcolumns inv).sR = s.sR := rfl
@[simp] theorem State.bypassMixcolumns_rk : (s.bypassMixcolumns inv).rk = s.rk := rfl
@[simp] theorem State.bypassMixcolumns_doneR : (s.bypassMixcolumns inv).doneR = s.doneR := rfl
@[simp] theorem State.bypassMixcolumns_subyte : (s.bypassMixcolumns inv).subyte = s.subyte := rfl
@[simp] theorem State.bypassMixcolumns_shiftrows : (s.bypassMixcolumns inv).shiftrows = s.shiftrows := rfl
@[simp] theorem State.bypassMixcolumns_mixcolumns : (s.bypassMixcolumns inv).mixcolumns =
    ⟨s.mixcolumns.dIn, inv, mixcolumnsStage inv s.mixcolumns.dIn⟩ := rfl
@[simp] theorem State.bypassMixcolumns_addroundkey : (s.bypassMixcolumns inv).addroundkey = s.addroundkey := rfl
@[simp] theorem State.bypassMixcolumns_keyExpand : (s.bypassMixcolumns inv).keyExpand = s.keyExpand := rfl
@[simp] theorem State.bypassMixcolumns_inputs : (s.bypassMixcolumns inv).inputs = s.inputs := rfl
@[simp] theorem State.bypassMixcolumns_script : (s.bypassMixcolumns inv).script = s.script := rfl
@[simp] theorem State.bypassMixcolumns_drawn : (s.bypassMixcolumns inv).drawn = s.drawn := rfl
end bypassMixcolumns

section accept
variable (m : Bit) (k d : Block)
@[simp] theorem State.accept_phase : (s.accept m k d).phase = Phase.kexp := rfl
@[simp] theorem State.accept_cnt : (s.accept m k d).cnt = 1 := rfl
@[simp] theorem State.accept_modeR : (s.accept m k d).modeR = m := rfl
@[simp] theorem State.accept_sR : (s.accept m k d).sR = d := rfl
@[simp] theorem State.accept_rk : (s.accept m k d).rk = s.rk.set 0 k := rfl
@[simp] theorem State.accept_doneR : (s.accept m k d).doneR = 0 := rfl
@[simp] theorem State.accept_subyte : (s.accept m k d).subyte = ⟨s.subyte.dIn, m, subyteStage m s.subyte.dIn⟩ := rfl
@[simp] theorem State.accept_shiftrows : (s.accept m k d).shiftrows =
    ⟨s.shiftrows.dIn, m, shiftrowsStage m s.shiftrows.dIn⟩ := rfl
@[simp] theorem State.accept_mixcolumns : (s.accept m k d).mixcolumns =
    ⟨s.mixcolumns.dIn, m, mixcolumnsStage m s.mixcolumns.dIn⟩ := rfl
@[simp] theorem State.accept_addroundkey : (s.accept m k d).addroundkey = s.addroundkey := rfl
@[simp] theorem State.accept_keyExpand : (s.accept m k d).keyExpand = s.keyExpand := rfl
@[simp] theorem State.accept_inputs : (s.accept m k d).inputs = s.inputs := rfl
@[simp] theorem State.accept_script : (s.accept m k d).script = s.script := rfl
@[simp] theorem State.accept_drawn : (s.accept m k d).drawn = s.drawn := rfl
end accept

section writeRk
variable (i : BitVec 4) (v : Block)
@[simp] theorem State.writeRk_phase : (s.writeRk i v).phase = s.phase := rfl
@[simp] theorem State.writeRk_cnt : (s.writeRk i v).cnt = s.cnt := rfl
@[simp] theorem State.writeRk_modeR : (s.writeRk i v).modeR = s.modeR := rfl
@[simp] theorem State.writeRk_sR : (s.writeRk i v).sR = s.sR := rfl
@[simp] theorem State.writeRk_rk : (s.writeRk i v).rk = s.rk.setIfInBounds i.toNat v := rfl
@[simp] theorem State.writeRk_doneR : (s.writeRk i v).doneR = s.doneR := rfl
@[simp] theorem State.writeRk_subyte : (s.writeRk i v).subyte = s.subyte := rfl
@[simp] theorem State.writeRk_shiftrows : (s.writeRk i v).shiftrows = s.shiftrows := rfl
@[simp] theorem State.writeRk_mixcolumns : (s.writeRk i v).mixcolumns = s.mixcolumns := rfl
@[simp] theorem State.writeRk_addroundkey : (s.writeRk i v).addroundkey = s.addroundkey := rfl
@[simp] theorem State.writeRk_keyExpand : (s.writeRk i v).keyExpand = s.keyExpand := rfl
@[simp] theorem State.writeRk_inputs : (s.writeRk i v).inputs = s.inputs := rfl
@[simp] theorem State.writeRk_script : (s.writeRk i v).script = s.script := rfl
@[simp] theorem State.writeRk_drawn : (s.writeRk i v).drawn = s.drawn := rfl
end writeRk

section advanceRound
variable (k : BitVec 4)
@[simp] theorem State.advanceRound_phase : (s.advanceRound k).phase = s.phase := rfl
@[simp] theorem State.advanceRound_cnt : (s.advanceRound k).cnt = k + 1 := rfl
@[simp] theorem State.advanceRound_modeR : (s.advanceRound k).modeR = s.modeR := rfl
@[simp] theorem State.advanceRound_sR : (s.advanceRound k).sR = s.sR := rfl
@[simp] theorem State.advanceRound_rk : (s.advanceRound k).rk = s.rk := rfl
@[simp] theorem State.advanceRound_doneR : (s.advanceRound k).doneR = s.doneR := rfl
@[simp] theorem State.advanceRound_subyte : (s.advanceRound k).subyte = s.subyte := rfl
@[simp] theorem State.advanceRound_shiftrows : (s.advanceRound k).shiftrows = s.shiftrows := rfl
@[simp] theorem State.advanceRound_mixcolumns : (s.advanceRound k).mixcolumns = s.mixcolumns := rfl
@[simp] theorem State.advanceRound_addroundkey : (s.advanceRound k).addroundkey = s.addroundkey := rfl
@[simp] theorem State.advanceRound_keyExpand : (s.advanceRound k).keyExpand = s.keyExpand := rfl
@[simp] theorem State.advanceRound_inputs : (s.advanceRound k).inputs = s.inputs := rfl
@[simp] theorem State.advanceRound_script : (s.advanceRound k).script = s.script := rfl
@[simp] theorem State.advanceRound_drawn : (s.advanceRound k).drawn = s.drawn := rfl
end advanceRound

section complete
@[simp] theorem State.complete_phase : (s.complete).phase = Phase.idle := rfl
@[simp] theorem State.complete_cnt : (s.complete).cnt = 0 := rfl
@[simp] theorem State.complete_modeR : (s.complete).modeR = s.modeR := rfl
@[simp] theorem State.complete_sR : (s.complete).sR = s.sR := rfl
@[simp] theorem State.complete_rk : (s.complete).rk = s.rk := rfl
@[simp] theorem State.complete_doneR : (s.complete).doneR = 1 := rfl
@[simp] theorem State.complete_subyte : (s.complete).subyte = s.subyte := rfl
@[simp] theorem State.complete_shiftrows : (s.complete).shiftrows = s.shiftrows := rfl
@[simp] theorem State.complete_mixcolumns : (s.complete).mixcolumns = s.mixcolumns := rfl
@[simp] theorem State.complete_addroundkey : (s.complete).addroundkey = s.addroundkey := rfl
@[simp] theorem State.complete_keyExpand : (s.complete).keyExpand = s.keyExpand := rfl
@[simp] theorem State.complete_inputs : (s.complete).inputs = s.inputs := rfl
@[simp] theorem State.complete_script : (s.complete).script = s.script := rfl
@[simp] theorem State.complete_drawn : (s.complete).drawn = s.drawn := rfl
end complete

section latchBlock
variable (v : Block)
@[simp] theorem State.latchBlock_phase : (s.latchBlock v).phase = s.phase := rfl
@[simp] theorem State.latchBlock_cnt : (s.latchBlock v).cnt = s.cnt := rfl
@[simp] theorem State.latchBlock_modeR : (s.latchBlock v).modeR = s.modeR := rfl
@[simp] theorem State.latchBlock_sR : (s.latchBlock v).sR = v := rfl
@[simp] theorem State.latchBlock_rk : (s.latchBlock v).rk = s.rk := rfl
@[simp] theorem State.latchBlock_doneR : (s.latchBlock v).doneR = s.doneR := rfl
@[simp] theorem State.latchBlock_subyte : (s.latchBlock v).subyte = s.subyte := rfl
@[simp] theorem State.latchBlock_shiftrows : (s.latchBlock v).shiftrows = s.shiftrows := rfl
@[simp] theorem State.latchBlock_mixcolumns : (s.latchBlock v).mixcolumns = s.mixcolumns := rfl
@[simp] theorem State.latchBlock_addroundkey : (s.latchBlock v).addroundkey = s.addroundkey := rfl
@[simp] theorem State.latchBlock_keyExpand : (s.latchBlock v).keyExpand = s.keyExpand := rfl
@[simp] theorem State.latchBlock_inputs : (s.latchBlock v).inputs = s.inputs := rfl
@[simp] theorem State.latchBlock_script : (s.latchBlock v).script = s.script := rfl
@[simp] theorem State.latchBlock_drawn : (s.latchBlock v).drawn = s.drawn := rfl
end latchBlock

section driveSubyte
variable (inv : Bit) (d : Block)
@[simp] theorem State.driveSubyte_phase : (s.driveSubyte inv d).phase = s.phase := rfl
@[simp] theorem State.driveSubyte_cnt : (s.driveSubyte inv d).cnt = s.cnt := rfl
@[simp] theorem State.driveSubyte_modeR : (s.driveSubyte inv d).modeR = s.modeR := rfl
@[simp] theorem State.driveSubyte_sR : (s.driveSubyte inv d).sR = s.sR := rfl
@[simp] theorem State.driveSubyte_rk : (s.driveSubyte inv d).rk = s.rk := rfl
@[simp] theorem State.driveSubyte_doneR : (s.driveSubyte inv d).doneR = s.doneR := rfl
@[simp] theorem State.driveSubyte_subyte : (s.driveSubyte inv d).subyte = ⟨d, inv, subyteStage inv d⟩ := rfl
@[simp] theorem State.driveSubyte_shiftrows : (s.driveSubyte inv d).shiftrows = s.shiftrows := rfl
@[simp] theorem State.driveSubyte_mixcolumns : (s.driveSubyte inv d).mixcolumns = s.mixcolumns := rfl
@[simp] theorem State.driveSubyte_addroundkey : (s.driveSubyte inv d).addroundkey = s.addroundkey := rfl
@[simp] theorem State.driveSubyte_keyExpand : (s.driveSubyte inv d).keyExpand = s.keyExpand := rfl
@[simp] theorem State.driveSubyte_inputs : (s.driveSubyte inv d).inputs = s.inputs := rfl
@[simp] theorem State.driveSubyte_script : (s.driveSubyte inv d).script = s.script := rfl
@[simp] theorem State.driveSubyte_drawn : (s.driveSubyte inv d).drawn = s.drawn := rfl
end driveSubyte

section driveShiftrows
variable (inv : Bit) (d : Block)
@[simp] theorem State.driveShiftrows_phase : (s.driveShiftrows inv d).phase = s.phase := rfl
@[simp] theorem State.driveShiftrows_cnt : (s.driveShiftrows inv d).cnt = s.cnt := rfl
@[simp] theorem State.driveShiftrows_modeR : (s.driveShiftrows inv d).modeR = s.modeR := rfl
@[simp] theorem State.driveShiftrows_sR : (s.driveShiftrows inv d).sR = s.sR := rfl
@[simp] theorem State.driveShiftrows_rk : (s.driveShiftrows inv d).rk = s.rk := rfl
@[simp] theorem State.driveShiftrows_doneR : (s.driveShiftrows inv d).doneR = s.doneR := rfl
@[simp] theorem State.driveShiftrows_subyte : (s.driveShiftrows inv d).subyte = s.subyte := rfl
@[simp] theorem State.driveShiftrows_shiftrows : (s.driveShiftrows inv d).shiftrows =
    ⟨d, inv, shiftrowsStage inv d⟩ := rfl
@[simp] theorem State.driveShiftrows_mixcolumns : (s.driveShiftrows inv d).mixcolumns = s.mixcolumns := rfl
@[simp] theorem State.driveShiftrows_addroundkey : (s.driveShiftrows inv d).addroundkey = s.addroundkey := rfl
@[simp] theorem State.driveShiftrows_keyExpand : (s.driveShiftrows inv d).keyExpand = s.keyExpand := rfl
@[simp] theorem State.driveShiftrows_inputs : (s.driveShiftrows inv d).inputs = s.inputs := rfl
@[simp] theorem State.driveShiftrows_script : (s.driveShiftrows inv d).script = s.script := rfl
@[simp] theorem State.driveShiftrows_drawn : (s.driveShiftrows inv d).drawn = s.drawn := rfl
end driveShiftrows

section driveMixcolumns
variable (inv : Bit) (d : Block)
@[simp] theorem State.driveMixcolumns_phase : (s.driveMixcolumns inv d).phase = s.phase := rfl
@[simp] theorem State.driveMixcolumns_cnt : (s.driveMixcolumns inv d).cnt = s.cnt := rfl
@[simp] theorem State.driveMixcolumns_modeR : (s.driveMixcolumns inv d).modeR = s.modeR := rfl
@[simp] theorem State.driveMixcolumns_sR : (s.driveMixcolumns inv d).sR = s.sR := rfl
@[simp] theorem State.driveMixcolumns_rk : (s.driveMixcolumns inv d).rk = s.rk := rfl
@[simp] theorem State.driveMixcolumns_doneR : (s.driveMixcolumns inv d).doneR = s.doneR := rfl
@[simp] theorem State.driveMixcolumns_subyte : (s.driveMixcolumns inv d).subyte = s.subyte := rfl
@[simp] theorem State.driveMixcolumns_shiftrows : (s.driveMixcolumns inv d).shiftrows = s.shiftrows := rfl
@[simp] theorem State.driveMixcolumns_mixcolumns : (s.driveMixcolumns inv d).mixcolumns =
    ⟨d, inv, mixcolumnsStage inv d⟩ := rfl
@[simp] theorem State.driveMixcolumns_addroundkey : (s.driveMixcolumns inv d).addroundkey = s.addroundkey := rfl
@[simp] theorem State.driveMixcolumns_keyExpand : (s.driveMixcolumns inv d).keyExpand = s.keyExpand := rfl
@[simp] theorem State.driveMixcolumns_inputs : (s.driveMixcolumns inv d).inputs = s.inputs := rfl
@[simp] theorem State.driveMixcolumns_script : (s.driveMixcolumns inv d).script = s.script := rfl
@[simp] theorem State.driveMixcolumns_drawn : (s.driveMixcolumns inv d).drawn = s.drawn := rfl
end driveMixcolumns

section driveAddroundkey
variable (d k : Block)
@[simp] theorem State.driveAddroundkey_phase : (s.driveAddroundkey d k).phase = s.phase := rfl
@[simp] theorem State.driveAddroundkey_cnt : (s.driveAddroundkey d k).cnt = s.cnt := rfl
@[simp] theorem State.driveAddroundkey_modeR : (s.driveAddroundkey d k).modeR = s.modeR := rfl
@[simp] theorem State.driveAddroundkey_sR : (s.driveAddroundkey d k).sR = s.sR := rfl
@[simp] theorem State.driveAddroundkey_rk : (s.driveAddroundkey d k).rk = s.rk := rfl
@[simp] theorem State.driveAddroundkey_doneR : (s.driveAddroundkey d k).doneR = s.doneR := rfl
@[simp] theorem State.driveAddroundkey_subyte : (s.driveAddroundkey d k).subyte = s.subyte := rfl
@[simp] theorem State.driveAddroundkey_shiftrows : (s.driveAddroundkey d k).shiftrows = s.shiftrows := rfl
@[simp] theorem State.driveAddroundkey_mixcolumns : (s.driveAddroundkey d k).mixcolumns = s.mixcolumns := rfl
@[simp] theorem State.driveAddroundkey_addroundkey : (s.driveAddroundkey d k).addroundkey =
    ⟨d, k, addRoundKey d k⟩ := rfl
@[simp] theorem State.driveAddroundkey_keyExpand : (s.driveAddroundkey d k).keyExpand = s.keyExpand := rfl
@[simp] theorem State.driveAddroundkey_inputs : (s.driveAddroundkey d k).inputs = s.inputs := rfl
@[simp] theorem State.driveAddroundkey_script : (s.driveAddroundkey d k).script = s.script := rfl
@[simp] theorem State.driveAddroundkey_drawn : (s.driveAddroundkey d k).drawn = s.drawn := rfl
end driveAddroundkey

section driveKeyExpand
variable (p : Block) (i : BitVec 4) (n : Block)
@[simp] theorem State.driveKeyExpand_phase : (s.driveKeyExpand p i n).phase = s.phase := rfl
@[simp] theorem State.driveKeyExpand_cnt : (s.driveKeyExpand p i n).cnt = s.cnt := rfl
@[simp] theorem State.driveKeyExpand_modeR : (s.driveKeyExpand p i n).modeR = s.modeR := rfl
@[simp] theorem State.driveKeyExpand_sR : (s.driveKeyExpand p i n).sR = s.sR := rfl
@[simp] theorem State.driveKeyExpand_rk : (s.driveKeyExpand p i n).rk = s.rk := rfl
@[simp] theorem State.driveKeyExpand_doneR : (s.driveKeyExpand p i n).doneR = s.doneR := rfl
@[simp] theorem State.driveKeyExpand_subyte : (s.driveKeyExpand p i n).subyte = s.subyte := rfl
@[simp] theorem State.driveKeyExpand_shiftrows : (s.driveKeyExpand p i n).shiftrows = s.shiftrows := rfl
@[simp] theorem State.driveKeyExpand_mixcolumns : (s.driveKeyExpand p i n).mixcolumns = s.mixcolumns := rfl
@[simp] theorem State.driveKeyExpand_addroundkey : (s.driveKeyExpand p i n).addroundkey = s.addroundkey := rfl
@[simp] theorem State.driveKeyExpand_keyExpand : (s.driveKeyExpand p i n).keyExpand = ⟨p, i, n⟩ := rfl
@[simp] theorem State.driveKeyExpand_inputs : (s.driveKeyExpand p i n).inputs = s.inputs := rfl
@[simp] theorem State.driveKeyExpand_script : (s.driveKeyExpand p i n).script = s.script := rfl
@[simp] theorem State.driveKeyExpand_drawn : (s.driveKeyExpand p i n).drawn = s.drawn := rfl
end driveKeyExpand

section advanceKey
variable (i : BitVec 4)
@[simp] theorem State.advanceKey_phase : (s.advanceKey i).phase = if i = 10 then Phase.rnd else s.phase := by
  unfold State.advanceKey; split <;> rfl
@[simp] theorem State.advanceKey_cnt : (s.advanceKey i).cnt = if i = 10 then 0 else i + 1 := by
  unfold State.advanceKey; split <;> rfl
@[simp] theorem State.advanceKey_modeR : (s.advanceKey i).modeR = s.modeR := by
  unfold State.advanceKey; split <;> rfl
@[simp] theorem State.advanceKey_sR : (s.advanceKey i).sR = s.sR := by
  unfold State.advanceKey; split <;> rfl
@[simp] theorem State.advanceKey_rk : (s.advanceKey i).rk = s.rk := by
  unfold State.advanceKey; split <;> rfl
@[simp] theorem State.advanceKey_doneR : (s.advanceKey i).doneR = s.doneR := by
  unfold State.advanceKey; split <;> rfl
@[simp] theorem State.advanceKey_subyte : (s.advanceKey i).subyte = s.subyte := by
  unfold State.advanceKey; split <;> rfl
@[simp] theorem State.advanceKey_shiftrows : (s.advanceKey i).shiftrows = s.shiftrows := by
  unfold State.advanceKey; split <;> rfl
@[simp] theorem State.advanceKey_mixcolumns : (s.advanceKey i).mixcolumns = s.mixcolumns := by
  unfold State.advanceKey; split <;> rfl
@[simp] theorem State.advanceKey_addroundkey : (s.advanceKey i).addroundkey = s.addroundkey := by
  unfold State.advanceKey; split <;> rfl
@[simp] theorem State.advanceKey_keyExpand : (s.advanceKey i).keyExpand = s.keyExpand := by
  unfold State.advanceKey; split <;> rfl
@[simp] theorem State.advanceKey_inputs : (s.advanceKey i).inputs = s.inputs := by
  unfold State.advanceKey; split <;> rfl
@[simp] theorem State.advanceKey_script : (s.advanceKey i).script = s.script := by
  unfold State.advanceKey; split <;> rfl
@[simp] theorem State.advanceKey_drawn : (s.advanceKey i).drawn = s.drawn := by
  unfold State.advanceKey; split <;> rfl
end advanceKey

section presentNext
@[simp] theorem State.presentNext_phase : s.presentNext.phase = s.phase := by
  unfold State.presentNext; split <;> rfl
@[simp] theorem State.presentNext_cnt : s.presentNext.cnt = s.cnt := by
  unfold State.presentNext; split <;> rfl
@[simp] theorem State.presentNext_modeR : s.presentNext.modeR = s.modeR := by
  unfold State.presentNext; split <;> rfl
@[simp] theorem State.presentNext_sR : s.presentNext.sR = s.sR := by
  unfold State.presentNext; split <;> rfl
@[simp] theorem State.presentNext_rk : s.presentNext.rk = s.rk := by
  unfold State.presentNext; split <;> rfl
@[simp] theorem State.presentNext_doneR : s.presentNext.doneR = s.doneR := by
  unfold State.presentNext; split <;> rfl
@[simp] theorem State.presentNext_subyte : s.presentNext.subyte = s.subyte := by
  unfold State.presentNext; split <;> rfl
@[simp] theorem State.presentNext_shiftrows : s.presentNext.shiftrows = s.shiftrows := by
  unfold State.presentNext; split <;> rfl
@[simp] theorem State.presentNext_mixcolumns : s.presentNext.mixcolumns = s.mixcolumns := by
  unfold State.presentNext; split <;> rfl
@[simp] theorem State.presentNext_addroundkey : s.presentNext.addroundkey = s.addroundkey := by
  unfold State.presentNext; split <;> rfl
@[simp] theorem State.presentNext_keyExpand : s.presentNext.keyExpand = s.keyExpand := by
  unfold State.presentNext; split <;> rfl
/-- What a scripted host presents next. -/
theorem State.presentNext_cons (i : HostInputs) (rest : List HostInputs) (h : s.script = i :: rest) :
    s.presentNext = { s with inputs := i, script := rest } := by
  unfold State.presentNext; rw [h]

/-- What an unscripted host presents next: free values. -/
theorem State.presentNext_nil (h : s.script = []) :
    s.presentNext = { s with inputs := freeInputs s.drawn, drawn := s.drawn + 1 } := by
  unfold State.presentNext; rw [h]
end presentNext

section chains
variable (inv : Bit) (key : Block)
@[simp] theorem State.chainKeyOnly_phase : (s.chainKeyOnly inv key).phase = s.phase := rfl
@[simp] theorem State.chainKeyOnly_cnt : (s.chainKeyOnly inv key).cnt = s.cnt := rfl
@[simp] theorem State.chainKeyOnly_modeR : (s.chainKeyOnly inv key).modeR = s.modeR := rfl
@[simp] theorem State.chainKeyOnly_sR : (s.chainKeyOnly inv key).sR = addRoundKey s.sR key := rfl
@[simp] theorem State.chainKeyOnly_rk : (s.chainKeyOnly inv key).rk = s.rk := rfl
@[simp] theorem State.chainKeyOnly_doneR : (s.chainKeyOnly inv key).doneR = s.doneR := rfl
@[simp] theorem State.chainKeyOnly_subyte : (s.chainKeyOnly inv key).subyte =
    ⟨s.subyte.dIn, inv, subyteStage inv s.subyte.dIn⟩ := rfl
@[simp] theorem State.chainKeyOnly_shiftrows : (s.chainKeyOnly inv key).shiftrows =
    ⟨s.shiftrows.dIn, inv, shiftrowsStage inv s.shiftrows.dIn⟩ := rfl
@[simp] theorem State.chainKeyOnly_mixcolumns : (s.chainKeyOnly inv key).mixcolumns =
    ⟨s.mixcolumns.dIn, inv, mixcolumnsStage inv s.mixcolumns.dIn⟩ := rfl
@[simp] theorem State.chainKeyOnly_keyExpand : (s.chainKeyOnly inv key).keyExpand = s.keyExpand := rfl
@[simp] theorem State.chainKeyOnly_inputs : (s.chainKeyOnly inv key).inputs = s.inputs := rfl
@[simp] theorem State.chainKeyOnly_script : (s.chainKeyOnly inv key).script = s.script := rfl
@[simp] theorem State.chainKeyOnly_drawn : (s.chainKeyOnly inv key).drawn = s.drawn := rfl
@[simp] theorem State.chainEncrypt_phase : (s.chainEncrypt key).phase = s.phase := rfl
@[simp] theorem State.chainEncrypt_cnt : (s.chainEncrypt key).cnt = s.cnt := rfl
@[simp] theorem State.chainEncrypt_modeR : (s.chainEncrypt key).modeR = s.modeR := rfl
@[simp] theorem State.chainEncrypt_sR : (s.chainEncrypt key).sR = addRoundKey (mixColumns (shiftRows (subBytes s.sR))) key := rfl
@[simp] theorem State.chainEncrypt_rk : (s.chainEncrypt key).rk = s.rk := rfl
@[simp] theorem State.chainEncrypt_doneR : (s.chainEncrypt key).doneR = s.doneR := rfl
@[simp] theorem State.chainEncrypt_keyExpand : (s.chainEncrypt key).keyExpand = s.keyExpand := rfl
@[simp] theorem State.chainEncrypt_inputs : (s.chainEncrypt key).inputs = s.inputs := rfl
@[simp] theorem State.chainEncrypt_script : (s.chainEncrypt key).script = s.script := rfl
@[simp] theorem State.chainEncrypt_drawn : (s.chainEncrypt key).drawn = s.drawn := rfl
@[simp] theorem State.chainEncryptFinal_phase : (s.chainEncryptFinal key).phase = s.phase := rfl
@[simp] theorem State.chainEncryptFinal_cnt : (s.chainEncryptFinal key).cnt = s.cnt := rfl
@[simp] theorem State.chainEncryptFinal_modeR : (s.chainEncryptFinal key).modeR = s.modeR := rfl
@[simp] theorem State.chainEncryptFinal_sR : (s.chainEncryptFinal key).sR = addRoundKey (shiftRows (subBytes s.sR)) key := rfl
@[simp] theorem State.chainEncryptFinal_rk : (s.chainEncryptFinal key).rk = s.rk := rfl
@[simp] theorem State.chainEncryptFinal_doneR : (s.chainEncryptFinal key).doneR = s.doneR := rfl
@[simp] theorem State.chainEncryptFinal_mixcolumns : (s.chainEncryptFinal key).mixcolumns =
    ⟨s.mixcolumns.dIn, 0, mixcolumnsStage 0 s.mixcolumns.dIn⟩ := rfl
@[simp] theorem State.chainEncryptFinal_keyExpand : (s.chainEncryptFinal key).keyExpand = s.keyExpand := rfl
@[simp] theorem State.chainEncryptFinal_inputs : (s.chainEncryptFinal key).inputs = s.inputs := rfl
@[simp] theorem State.chainEncryptFinal_script : (s.chainEncryptFinal key).script = s.script := rfl
@[simp] theorem State.chainEncryptFinal_drawn : (s.chainEncryptFinal key).drawn = s.drawn := rfl
@[simp] theorem State.chainDecryptInit_phase : (s.chainDecryptInit key).phase = s.phase := rfl
@[simp] theorem State.chainDecryptInit_cnt : (s.chainDecryptInit key).cnt = s.cnt := rfl
@[simp] theorem State.chainDecryptInit_modeR : (s.chainDecryptInit key).modeR = s.modeR := rfl
@[simp] theorem State.chainDecryptInit_sR : (s.chainDecryptInit key).sR = invSubBytes (invShiftRows (addRoundKey s.sR key)) := rfl
@[simp] theorem State.chainDecryptInit_rk : (s.chainDecryptInit key).rk = s.rk := rfl
@[simp] theorem State.chainDecryptInit_doneR : (s.chainDecryptInit key).doneR = s.doneR := rfl
@[simp] theorem State.chainDecryptInit_mixcolumns : (s.chainDecryptInit key).mixcolumns =
    ⟨s.mixcolumns.dIn, 1, mixcolumnsStage 1 s.mixcolumns.dIn⟩ := rfl
@[simp] theorem State.chainDecryptInit_keyExpand : (s.chainDecryptInit key).keyExpand = s.keyExpand := rfl
@[simp] theorem State.chainDecryptInit_inputs : (s.chainDecryptInit key).inputs = s.inputs := rfl
@[simp] theorem State.chainDecryptInit_script : (s.chainDecryptInit key).script = s.script := rfl
@[simp] theorem State.chainDecryptInit_drawn : (s.chainDecryptInit key).drawn = s.drawn := rfl
@[simp] theorem State.chainDecrypt_phase : (s.chainDecrypt key).phase = s.phase := rfl
@[simp] theorem State.chainDecrypt_cnt : (s.chainDecrypt key).cnt = s.cnt := rfl
@[simp] theorem State.chainDecrypt_modeR : (s.chainDecrypt key).modeR = s.modeR := rfl
@[simp] theorem State.chainDecrypt_sR : (s.chainDecrypt key).sR = invSubBytes (invShiftRows (invMixColumns (addRoundKey s.sR key))) := rfl
@[simp] theorem State.chainDecrypt_rk : (s.chainDecrypt key).rk = s.rk := rfl
@[simp] theorem State.chainDecrypt_doneR : (s.chainDecrypt key).doneR = s.doneR := rfl
@[simp] theorem State.chainDecrypt_keyExpand : (s.chainDecrypt key).keyExpand = s.keyExpand := rfl
@[simp] theorem State.chainDecrypt_inputs : (s.chainDecrypt key).inputs = s.inputs := rfl
@[simp] theorem State.chainDecrypt_script : (s.chainDecrypt key).script = s.script := rfl
@[simp] theorem State.chainDecrypt_drawn : (s.chainDecrypt key).drawn = s.drawn := rfl
@[simp] theorem State.chainKeyOnly_addroundkey : (s.chainKeyOnly inv key).addroundkey =
    ⟨s.sR, key, addRoundKey s.sR key⟩ := rfl
@[simp] theorem State.chainEncrypt_subyte : (s.chainEncrypt key).subyte =
    ⟨s.sR, 0, subBytes s.sR⟩ := rfl
@[simp] theorem State.chainEncrypt_shiftrows : (s.chainEncrypt key).shiftrows =
    ⟨subBytes s.sR, 0, shiftRows (subBytes s.sR)⟩ := rfl
@[simp] theorem State.chainEncrypt_mixcolumns : (s.chainEncrypt key).mixcolumns =
    ⟨shiftRows (subBytes s.sR), 0, mixColumns (shiftRows (subBytes s.sR))⟩ := rfl
@[simp] theorem State.chainEncrypt_addroundkey : (s.chainEncrypt key).addroundkey =
    ⟨mixColumns (shiftRows (subBytes s.sR)), key, addRoundKey (mixColumns (shiftRows (subBytes s.sR))) key⟩ := rfl
@[simp] theorem State.chainEncryptFinal_subyte : (s.chainEncryptFinal key).subyte =
    ⟨s.sR, 0, subBytes s.sR⟩ := rfl
@[simp] theorem State.chainEncryptFinal_shiftrows : (s.chainEncryptFinal key).shiftrows =
    ⟨subBytes s.sR, 0, shiftRows (subBytes s.sR)⟩ := rfl
@[simp] theorem State.chainEncryptFinal_addroundkey : (s.chainEncryptFinal key).addroundkey =
    ⟨shiftRows (subBytes s.sR), key, addRoundKey (shiftRows (subBytes s.sR)) key⟩ := rfl
@[simp] theorem State.chainDecryptInit_addroundkey : (s.chainDecryptInit key).addroundkey =
    ⟨s.sR, key, addRoundKey s.sR key⟩ := rfl
@[simp] theorem State.chainDecryptInit_shiftrows : (s.chainDecryptInit key).shiftrows =
    ⟨addRoundKey s.sR key, 1, invShiftRows (addRoundKey s.sR key)⟩ := rfl
@[simp] theorem State.chainDecryptInit_subyte : (s.chainDecryptInit key).subyte =
    ⟨invShiftRows (addRoundKey s.sR key), 1, invSubBytes (invShiftRows (addRoundKey s.sR key))⟩ := rfl
@[simp] theorem State.chainDecrypt_addroundkey : (s.chainDecrypt key).addroundkey =
    ⟨s.sR, key, addRoundKey s.sR key⟩ := rfl
@[simp] theorem State.chainDecrypt_mixcolumns : (s.chainDecrypt key).mixcolumns =
    ⟨addRoundKey s.sR key, 1, invMixColumns (addRoundKey s.sR key)⟩ := rfl
@[simp] theorem State.chainDecrypt_shiftrows : (s.chainDecrypt key).shiftrows =
    ⟨invMixColumns (addRoundKey s.sR key), 1, invShiftRows (invMixColumns (addRoundKey s.sR key))⟩ := rfl
@[simp] theorem State.chainDecrypt_subyte : (s.chainDecrypt key).subyte =
    ⟨invShiftRows (invMixColumns (addRoundKey s.sR key)), 1, invSubBytes (invShiftRows (invMixColumns (addRoundKey s.sR key)))⟩ := rfl
end chains

end Sys2Proof.Machine
end

