-- ==== Sys2Proof/Laws/Ops.lean ====
section
/-! SUPPORT. What each shared operation can do, said once: reading and writing the key store, the key step, the round
steps, a step without reset, and the command that the inputs present. -/

namespace Sys2Proof.Machine

/-- A one-bit value is 0 or 1. -/
theorem bit_cases (b : Bit) : b = 0 ∨ b = 1 := by revert b; decide

/-! ## The key store and the key step -/

/-- An entry 0..10 of the key store can be read. -/
theorem readRk_of_lt (s : State) (i : BitVec 4) (h : i.toNat < Config.roundKeys) : s.readRk i = some s.rk[i.toNat] :=
  Vector.getElem?_eq_getElem h

/-- There is no entry 11..15. -/
theorem readRk_eq_none_iff (s : State) (i : BitVec 4) : s.readRk i = none ↔ Config.roundKeys ≤ i.toNat := by
  simp [State.readRk]

/-- RCON has a value exactly at the indices of a key step. -/
theorem rcon_isSome_iff (i : BitVec 4) : (rcon i).isSome = true ↔ keyIndexOk i = true := by
  revert i; decide

/-- The key step function has a value exactly at the indices of a key step. -/
theorem keyStep_isSome_iff (p : Block) (i : BitVec 4) : (keyStep p i).isSome = true ↔ keyIndexOk i = true := by
  rw [keyStep, Option.isSome_map, rcon_isSome_iff]

/-- Below its index a key step finds the entry it reads. -/
theorem pred_lt_of_keyIndexOk {i : BitVec 4} (h : keyIndexOk i = true) : (i - 1).toNat < Config.roundKeys := by
  revert i; decide

/-- Everything KEYSTEP can do: write `rk[i]` and advance, or fault on a reserved index. -/
theorem execKeyStep_eq (i : BitVec 4) (s : State) :
    (∃ prev n, s.readRk (i - 1) = some prev ∧ keyStep prev i = some n ∧
      execKeyStep i s = .next (((s.driveKeyExpand prev i n).writeRk i n).advanceKey i)) ∨
    (keyIndexOk i = false ∧ execKeyStep i s = .fault (.unreachableControlState .kexp i)) := by
  by_cases h : keyIndexOk i = true
  · have hlt := pred_lt_of_keyIndexOk h
    have hr := readRk_of_lt s (i - 1) hlt
    obtain ⟨n, hn⟩ := Option.isSome_iff_exists.1 ((keyStep_isSome_iff s.rk[(i - 1).toNat] i).2 h)
    exact .inl ⟨_, n, hr, hn, by simp only [execKeyStep, hr, hn]⟩
  · refine .inr ⟨by simpa using h, ?_⟩
    unfold execKeyStep
    split
    · rfl
    · next prev _ =>
      have hn : keyStep prev i = none := by
        rw [← Option.not_isSome_iff_eq_none, keyStep_isSome_iff]; exact h
      simp [hn, unreachableControl]

/-- KEYSTEP with an index 1..10 answers a next state. -/
theorem execKeyStep_next {i : BitVec 4} (h : keyIndexOk i = true) (s : State) :
    ∃ prev n, s.readRk (i - 1) = some prev ∧ keyStep prev i = some n ∧
      execKeyStep i s = .next (((s.driveKeyExpand prev i n).writeRk i n).advanceKey i) := by
  rcases execKeyStep_eq i s with h' | ⟨hf, -⟩
  · exact h'
  · rw [h] at hf; cases hf

/-! ## The round steps -/

/-- A round step whose key index is 0..10 answers a next state. -/
theorem withRoundKey_next (s : State) (k j : BitVec 4) (f : Block → State) (h : j.toNat < Config.roundKeys) :
    withRoundKey s k j f = .next (f s.rk[j.toNat]) := by
  simp [withRoundKey, readRk_of_lt s j h]

/-- ENC_INIT. -/
theorem execEncInit_eq (s : State) : execEncInit s = .next ((s.chainKeyOnly 0 s.rk[0]).advanceRound 0) :=
  withRoundKey_next s 0 0 _ (by decide)

/-- ENC_ROUND in its range. -/
theorem execEncRound_eq {k : BitVec 4} (h : middleRoundOk k = true) (s : State) :
    ∃ hk : k.toNat < Config.roundKeys, execEncRound k s = .next ((s.chainEncrypt s.rk[k.toNat]).advanceRound k) := by
  have hk : k.toNat < Config.roundKeys := by revert k; decide
  exact ⟨hk, by rw [execEncRound, if_pos h, withRoundKey_next s k k _ hk]⟩

/-- ENC_FINAL. -/
theorem execEncFinal_eq (s : State) : execEncFinal s = .next ((s.chainEncryptFinal s.rk[10]).complete) :=
  withRoundKey_next s 10 10 _ (by decide)

/-- DEC_INIT. -/
theorem execDecInit_eq (s : State) : execDecInit s = .next ((s.chainDecryptInit s.rk[10]).advanceRound 0) :=
  withRoundKey_next s 0 10 _ (by decide)

/-- DEC_ROUND in its range. -/
theorem execDecRound_eq {k : BitVec 4} (h : middleRoundOk k = true) (s : State) :
    ∃ hk : (10 - k).toNat < Config.roundKeys,
      execDecRound k s = .next ((s.chainDecrypt s.rk[(10 - k).toNat]).advanceRound k) := by
  have hk : (10 - k).toNat < Config.roundKeys := by revert k; decide
  exact ⟨hk, by rw [execDecRound, if_pos h, withRoundKey_next s k (10 - k) _ hk]⟩

/-- DEC_FINAL. -/
theorem execDecFinal_eq (s : State) : execDecFinal s = .next ((s.chainKeyOnly 1 s.rk[0]).complete) :=
  withRoundKey_next s 10 0 _ (by decide)

/-- What a round step writes: `s_r` and unit ports, every select input at `mode_r` among them (R37), and the sequencer by
one position or to completion. -/
structure RoundWrites (s t : State) (k : BitVec 4) : Prop where
  modeR : t.modeR = s.modeR
  rk : t.rk = s.rk
  keyExpand : t.keyExpand = s.keyExpand
  inputs : t.inputs = s.inputs
  script : t.script = s.script
  drawn : t.drawn = s.drawn
  selects : t.selectsAt s.modeR
  middle : k ≠ 10 → t.phase = s.phase ∧ t.cnt = k + 1 ∧ t.doneR = s.doneR
  last : k = 10 → t.phase = .idle ∧ t.cnt = 0 ∧ t.doneR = 1

/-- Every legal RS vector selects a round operation. -/
theorem decodeRs_cases (m : Bit) (k : BitVec 4) :
    (m = 0 ∧ k = 0 ∧ decodeRs (m ++ k) = some .encInit) ∨
    (m = 0 ∧ middleRoundOk k = true ∧ decodeRs (m ++ k) = some (.encRound k)) ∨
    (m = 0 ∧ k = 10 ∧ decodeRs (m ++ k) = some .encFinal) ∨
    (m = 1 ∧ k = 0 ∧ decodeRs (m ++ k) = some .decInit) ∨
    (m = 1 ∧ middleRoundOk k = true ∧ decodeRs (m ++ k) = some (.decRound k)) ∨
    (m = 1 ∧ k = 10 ∧ decodeRs (m ++ k) = some .decFinal) ∨
    (11 ≤ k ∧ decodeRs (m ++ k) = none) := by
  revert m k; decide

/-- A round step with `cnt` in 0..10 answers a next state, and that is all it writes outside `s_r` and the unit ports. -/
theorem roundPhaseStep_next (s : State) (h : s.cnt ≤ 10) : ∃ t, s.roundPhaseStep = .next t ∧ RoundWrites s t s.cnt := by
  unfold State.roundPhaseStep
  rcases decodeRs_cases s.modeR s.cnt with ⟨hm, hk, hd⟩ | ⟨hm, hk, hd⟩ | ⟨hm, hk, hd⟩ | ⟨hm, hk, hd⟩ | ⟨hm, hk, hd⟩ |
    ⟨hm, hk, hd⟩ | ⟨hk, -⟩
  · rw [hd]
    exact ⟨_, execEncInit_eq s, by constructor <;> first | exact hm ▸ ⟨rfl, rfl, rfl⟩ | simp [hk]⟩
  · rw [hd]
    have h10 : s.cnt ≠ 10 := by rintro e; rw [e] at hk; cases hk
    obtain ⟨_, he⟩ := execEncRound_eq hk s
    exact ⟨_, he, by constructor <;> first | exact fun e => absurd e h10 | exact hm ▸ ⟨rfl, rfl, rfl⟩ | simp⟩
  · rw [hd]
    exact ⟨_, execEncFinal_eq s, by constructor <;> first | exact hm ▸ ⟨rfl, rfl, rfl⟩ | simp [hk]⟩
  · rw [hd]
    exact ⟨_, execDecInit_eq s, by constructor <;> first | exact hm ▸ ⟨rfl, rfl, rfl⟩ | simp [hk]⟩
  · rw [hd]
    have h10 : s.cnt ≠ 10 := by rintro e; rw [e] at hk; cases hk
    obtain ⟨_, he⟩ := execDecRound_eq hk s
    exact ⟨_, he, by constructor <;> first | exact fun e => absurd e h10 | exact hm ▸ ⟨rfl, rfl, rfl⟩ | simp⟩
  · rw [hd]
    exact ⟨_, execDecFinal_eq s, by constructor <;> first | exact hm ▸ ⟨rfl, rfl, rfl⟩ | simp [hk]⟩
  · exact absurd (BitVec.le_trans hk h) (by decide)

/-- A round step with `cnt` in 11..15 faults. -/
theorem roundPhaseStep_fault (s : State) (h : 11 ≤ s.cnt) :
    s.roundPhaseStep = .fault (.unreachableControlState s.phase s.cnt) := by
  have hd : decodeRs (s.modeR ++ s.cnt) = none := by
    generalize s.modeR = m at *; generalize s.cnt = k at *; revert m k; decide
  simp [State.roundPhaseStep, hd, unreachableControl]

/-- The key phase runs KEYSTEP with index `cnt`, in phase KEXP. -/
theorem keyPhaseStep_eq (s : State) (h : s.phase = .kexp) : s.keyPhaseStep = execKeyStep s.cnt s := by
  unfold State.keyPhaseStep decodeKx
  by_cases hk : keyIndexOk s.cnt = true
  · simp [hk]
  · rcases execKeyStep_eq s.cnt s with ⟨prev, n, -, hn, -⟩ | ⟨-, hf⟩
    · exact absurd ((keyStep_isSome_iff prev s.cnt).1 (by simp [hn])) hk
    · simp [hk, hf, unreachableControl, h]

/-! ## Commands and steps -/

/-- In an idle core a command has its effect. -/
theorem commandStep_idle {s : State} (u : State) (h : s.phase = .idle) (hc : s.cnt = 0) : s.commandStep u = .next u := by
  simp [State.commandStep, h, hc]

/-- In KEXP every command is the key step. -/
theorem commandStep_kexp {s : State} (u : State) (h : s.phase = .kexp) : s.commandStep u = execKeyStep s.cnt s := by
  simp only [State.commandStep, h, keyPhaseStep_eq s h]

/-- In RND every command is the round step. -/
theorem commandStep_rnd {s : State} (u : State) (h : s.phase = .rnd) : s.commandStep u = s.roundPhaseStep := by
  simp only [State.commandStep, h]

/-- `mapNext` answers a next state exactly where its argument does. -/
theorem mapNext_eq_next {f : State → State} {o : Result} {t : State} :
    mapNext f o = .next t ↔ ∃ u, o = .next u ∧ t = f u := by
  cases o <;> simp [mapNext, eq_comm]

/-- `mapNext` keeps a fault. -/
theorem mapNext_eq_fault {f : State → State} {o : Result} {r : Fault} : mapNext f o = .fault r ↔ o = .fault r := by
  cases o <;> simp [mapNext]

/-- The sampled command: RST with `rst = 1`; without it NOP, or ENC or DEC by `mode` (R36). -/
theorem fetch_eq (s : State) : s.fetch =
    if s.inputs.rst = 1 then .rst
    else if s.inputs.start = 0 then .nop
    else if s.inputs.mode = 0 then .enc s.inputs.keyIn s.inputs.din
    else .dec s.inputs.keyIn s.inputs.din := by
  unfold State.fetch cmdVector
  generalize s.inputs.keyIn = a; generalize s.inputs.din = b
  rcases bit_cases s.inputs.rst with h | h <;> rcases bit_cases s.inputs.start with h' | h' <;>
    rcases bit_cases s.inputs.mode with h'' | h'' <;> rw [h, h', h''] <;> rfl

end Sys2Proof.Machine
end

