-- ==== Sys2Proof/Laws/PerInstr.lean ====
section
/-! SUPPORT. Statements for all operations, one lemma per constructor of Instr. EncodedLength: an operation's bytes are its
control byte, if its format has one, and sixteen bytes for each operand block of its point. -/

namespace Sys2Proof.Laws.EncodedLength

/-- How many bytes the operations of a point take. -/
def length : Point → Nat
  | .cmd => 33
  | .subyte | .shiftrows | .mixcolumns => 17
  | .addroundkey => 32
  | .kx | .rs => 1

/-- The encoding of `i` has the length of its point. -/
def Statement (i : Instr) : Prop := (encode i).length = length i.point

theorem rst : Statement .rst := rfl
theorem nop : Statement .nop := rfl
theorem enc (keyIn din : Block) : Statement (.enc keyIn din) := rfl
theorem dec (keyIn din : Block) : Statement (.dec keyIn din) := rfl
theorem subBytes (d : Block) : Statement (.subBytes d) := rfl
theorem invSubBytes (d : Block) : Statement (.invSubBytes d) := rfl
theorem shiftRows (d : Block) : Statement (.shiftRows d) := rfl
theorem invShiftRows (d : Block) : Statement (.invShiftRows d) := rfl
theorem mixColumns (d : Block) : Statement (.mixColumns d) := rfl
theorem invMixColumns (d : Block) : Statement (.invMixColumns d) := rfl
theorem addRoundKey (d k : Block) : Statement (.addRoundKey d k) := rfl
theorem keyStep (i : BitVec 4) : Statement (.keyStep i) := rfl
theorem encInit : Statement .encInit := rfl
theorem encRound (k : BitVec 4) : Statement (.encRound k) := rfl
theorem encFinal : Statement .encFinal := rfl
theorem decInit : Statement .decInit := rfl
theorem decRound (k : BitVec 4) : Statement (.decRound k) := rfl
theorem decFinal : Statement .decFinal := rfl

end Sys2Proof.Laws.EncodedLength
end

