-- ==== Sys2Proof/Laws/Step.lean ====
section
/-! SUPPORT. What a step can do, said once: the inversion of a step, by reset, idle command, key step and round step. -/

namespace Sys2Proof.Machine

/-- RST is the only command with `rst = 1`. -/
theorem exec_fetch_rst {s : State} (h : s.inputs.rst = 1) : exec s.fetch s = .next s.resetControl := by
  rw [fetch_eq, if_pos h]; rfl

/-- Without reset a step is `commandStep` of what the command does in an idle core. -/
theorem exec_fetch_command {s : State} (h : s.inputs.rst = 0) :
    exec s.fetch s = s.commandStep
      (if s.inputs.start = 0 then s else s.accept s.inputs.mode s.inputs.keyIn s.inputs.din) := by
  rw [fetch_eq, if_neg (by rw [h]; decide)]
  split
  · rfl
  · rcases bit_cases s.inputs.mode with hm | hm
    · rw [if_pos hm, hm]; rfl
    · rw [if_neg (by rw [hm]; decide), hm]; rfl

/-- What the core's part of a step can do, by the lines of R77. -/
inductive StepCase (s : State) : Result → Prop where
  | reset : s.inputs.rst = 1 → StepCase s (.next s.resetControl)
  | idleNop : s.inputs.rst = 0 → s.phase = .idle → s.cnt = 0 → s.inputs.start = 0 → StepCase s (.next s)
  | accept : s.inputs.rst = 0 → s.phase = .idle → s.cnt = 0 → s.inputs.start = 1 →
      StepCase s (.next (s.accept s.inputs.mode s.inputs.keyIn s.inputs.din))
  | key (prev n : Block) : s.inputs.rst = 0 → s.phase = .kexp → keyIndexOk s.cnt = true →
      s.readRk (s.cnt - 1) = some prev → keyStep prev s.cnt = some n →
      StepCase s (.next (((s.driveKeyExpand prev s.cnt n).writeRk s.cnt n).advanceKey s.cnt))
  | round (u : State) : s.inputs.rst = 0 → s.phase = .rnd → s.cnt ≤ 10 → s.roundPhaseStep = .next u →
      RoundWrites s u s.cnt → StepCase s (.next u)
  | stuckIdle : s.inputs.rst = 0 → s.phase = .idle → s.cnt ≠ 0 →
      StepCase s (.fault (.unreachableControlState s.phase s.cnt))
  | stuckKey : s.inputs.rst = 0 → s.phase = .kexp → keyIndexOk s.cnt = false →
      StepCase s (.fault (.unreachableControlState s.phase s.cnt))
  | stuckRound : s.inputs.rst = 0 → s.phase = .rnd → 11 ≤ s.cnt →
      StepCase s (.fault (.unreachableControlState s.phase s.cnt))
  | stuckReserved : s.inputs.rst = 0 → s.phase = .reserved →
      StepCase s (.fault (.unreachableControlState s.phase s.cnt))

/-- Every step is one of these cases. -/
theorem stepCase (s : State) : StepCase s (exec s.fetch s) := by
  rcases bit_cases s.inputs.rst with h | h
  · rw [exec_fetch_command h]
    cases hp : s.phase with
    | idle =>
      by_cases hc : s.cnt = 0
      · rw [commandStep_idle _ hp hc]
        rcases bit_cases s.inputs.start with hs | hs
        · rw [if_pos hs]; exact .idleNop h hp hc hs
        · rw [if_neg (by rw [hs]; decide)]; exact .accept h hp hc hs
      · have e := StepCase.stuckIdle h hp hc
        simpa only [State.commandStep, hp, if_neg hc, unreachableControl] using e
    | kexp =>
      rw [commandStep_kexp _ hp]
      rcases execKeyStep_eq s.cnt s with ⟨prev, n, hr, hn, he⟩ | ⟨hk, he⟩
      · rw [he]
        exact .key prev n h hp ((keyStep_isSome_iff prev s.cnt).1 (by simp [hn])) hr hn
      · rw [he, ← hp]; exact .stuckKey h hp hk
    | rnd =>
      rw [commandStep_rnd _ hp]
      by_cases hc : s.cnt ≤ 10
      · obtain ⟨u, hu, hw⟩ := roundPhaseStep_next s hc
        rw [hu]; exact .round u h hp hc hu hw
      · have h11 : 11 ≤ s.cnt := by revert hc; generalize s.cnt = k; revert k; decide
        rw [roundPhaseStep_fault s h11]; exact .stuckRound h hp h11
    | reserved =>
      have e := StepCase.stuckReserved h hp
      simpa only [State.commandStep, hp, unreachableControl] using e
  · rw [exec_fetch_rst h]; exact .reset h

/-- A step answers a next state exactly where the core does, and the host then presents its next inputs. -/
theorem step_eq_next {s t : State} : step s = .next t ↔ ∃ u, exec s.fetch s = .next u ∧ t = u.presentNext :=
  mapNext_eq_next

/-- A step faults exactly where the core does. -/
theorem step_eq_fault {s : State} {f : Fault} : step s = .fault f ↔ exec s.fetch s = .fault f :=
  mapNext_eq_fault

end Sys2Proof.Machine
end

