-- ==== Sys2Proof/Laws/Run.lean ====
section
/-! SUPPORT. Runs of several steps, one step at a time, and what the host presents after a step. -/

namespace Sys2Proof.Machine

/-- No step. -/
@[simp] theorem runSteps_zero (s : State) : runSteps 0 s = .next s := rfl

/-- A run goes on from the next state of its first step. -/
theorem runSteps_succ {s t : State} (n : Nat) (h : step s = .next t) : runSteps (n + 1) s = runSteps n t := by
  refine (Host.Core.run.eq_2 Sys2Proof.core s n).trans ?_
  rw [show Sys2Proof.core.step s = .next t from h]
  rfl

/-- A run ends with the fault of its first step. -/
theorem runSteps_fault {s : State} {f : Fault} (n : Nat) (h : step s = .fault f) : runSteps (n + 1) s = .fault f := by
  refine (Host.Core.run.eq_2 Sys2Proof.core s n).trans ?_
  rw [show Sys2Proof.core.step s = .fault f from h]
  rfl

/-- The core's part of a step leaves what the host will present. -/
theorem exec_fetch_host {s u : State} (h : exec s.fetch s = .next u) : u.script = s.script ∧ u.drawn = s.drawn := by
  have hc := stepCase s
  rw [h] at hc
  cases hc with
  | round _ _ _ _ _ hw => exact ⟨hw.script, hw.drawn⟩
  | key => simp
  | _ => exact ⟨rfl, rfl⟩

/-- After a step the host presents the next input of its script. -/
theorem step_presents_script {s t : State} {i : HostInputs} {rest : List HostInputs} (h : step s = .next t)
    (hs : s.script = i :: rest) : t.inputs = i ∧ t.script = rest := by
  obtain ⟨u, hu, rfl⟩ := step_eq_next.1 h
  rw [u.presentNext_cons i rest ((exec_fetch_host hu).1.trans hs)]
  exact ⟨rfl, rfl⟩

end Sys2Proof.Machine
end

