-- ==== Sys2Proof/Tests/Slice0.lean ====
section
/-! SUPPORT. Tests of the model, their expected values taken from spec/95_test_vectors.md and from the encoding tables of
spec/30_encoding.md, and for every statement with hypotheses a witness that meets them. -/

namespace Sys2Proof.Tests

open Sys2Proof.Machine

/-! Concrete values: the §8 vector and its key schedule (95_test_vectors.md sections 1.5 and 2.5). -/

def key8 : Block := 0x000102030405060708090a0b0c0d0e0f
def plain8 : Block := 0x00112233445566778899aabbccddeeff
def cipher8 : Block := 0x69c4e0d86a7b0430d8cdb78070b4c55a

def schedule8 : Vector Block Config.roundKeys :=
  #v[0x000102030405060708090a0b0c0d0e0f, 0xd6aa74fdd2af72fadaa678f1d6ab76fe, 0xb692cf0b643dbdf1be9bc5006830b3fe,
    0xb6ff744ed2c2c9bf6c590cbf0469bf41, 0x47f7f7bc95353e03f96c32bcfd058dfd, 0x3caaa3e8a99f9deb50f3af57adf622aa,
    0x5e390f7df7a69296a7553dc10aa31f6b, 0x14f9701ae35fe28c440adf4d4ea9c026, 0x47438735a41c65b9e016baf4aebf7ad2,
    0x549932d1f08557681093ed9cbe2c974e, 0x13111d7fe3944a17f307a78b4d2b30c5]

/-- The state after reset, moved to a control state. -/
def at' (phase : Phase) (cnt : BitVec 4) (doneR : Bit := 0) (modeR : Bit := 0) : State :=
  { State.reset with phase := phase, cnt := cnt, doneR := doneR, modeR := modeR }

/-- The same with a CMD vector at the input ports, the §8 operands beside it, and a NOP after it. -/
def cmdAt (rst start mode : Bit) (phase : Phase) (cnt : BitVec 4) (doneR : Bit := 0) (modeR : Bit := 0) : State :=
  { at' phase cnt doneR modeR with
    inputs := { rst := rst, start := start, mode := mode, keyIn := key8, din := plain8 }
    script := [HostInputs.quiet] }

/-- A working block and the §8 schedule in the store. -/
def working (sR : Block) : State := { State.reset with sR := sR, rk := schedule8 }

/-- The outcome is a next state of which `f` holds. -/
def nextHas (o : Result) (f : State → Bool) : Bool :=
  match o with
  | .next t => f t
  | .fault _ | .refused _ => false

/-- The outcome is this fault. -/
def faults (o : Result) (phase : Phase) (cnt : BitVec 4) : Bool :=
  match o with
  | .fault (.unreachableControlState p c) => p == phase && c == cnt
  | .next _ | .refused _ => false

/-- `(phase, cnt, done_r)` of a state, as section 2.8 writes it. -/
def control (s : State) : Phase × BitVec 4 × Bit := (s.phase, s.cnt, s.doneR)

/-! Well-formedness: an ill-formed term for each check is refused. -/

theorem test_wf_refuses_keyStep : Instr.wf (.keyStep 0) = false ∧ Instr.wf (.keyStep 11) = false := by decide
theorem test_wf_refuses_encRound : Instr.wf (.encRound 0) = false ∧ Instr.wf (.encRound 10) = false := by decide
theorem test_wf_refuses_decRound : Instr.wf (.decRound 0) = false ∧ Instr.wf (.decRound 15) = false := by decide

/-! Decoding: a word of every constructor, written out from the tables of 30_encoding.md sections 1 and 2. The byte form of
the operands (byte 0 first) is the model's own (log entry 7). -/

def bytes8 : List Byte :=
  [0x00, 0x01, 0x02, 0x03, 0x04, 0x05, 0x06, 0x07, 0x08, 0x09, 0x0a, 0x0b, 0x0c, 0x0d, 0x0e, 0x0f]
def plainBytes8 : List Byte :=
  [0x00, 0x11, 0x22, 0x33, 0x44, 0x55, 0x66, 0x77, 0x88, 0x99, 0xaa, 0xbb, 0xcc, 0xdd, 0xee, 0xff]

/-- R36: `1--`, here 101. -/
theorem test_decode_rst : decode .cmd (0b101 :: (bytes8 ++ plainBytes8)) = .ok .rst [] := by decide
/-- R36: `00-`, here 001. -/
theorem test_decode_nop : decode .cmd (0b001 :: (bytes8 ++ plainBytes8)) = .ok .nop [] := by decide
/-- R36: `010`, with key_in first. -/
theorem test_decode_enc : decode .cmd (0b010 :: (bytes8 ++ plainBytes8)) = .ok (.enc key8 plain8) [] := by decide
/-- R36: `011`. -/
theorem test_decode_dec : decode .cmd (0b011 :: (bytes8 ++ plainBytes8)) = .ok (.dec key8 plain8) [] := by decide
/-- R37: `inv = 0`. -/
theorem test_decode_subBytes : decode .subyte (0 :: plainBytes8) = .ok (.subBytes plain8) [] := by decide
/-- R37: `inv = 1`. -/
theorem test_decode_invSubBytes : decode .subyte (1 :: plainBytes8) = .ok (.invSubBytes plain8) [] := by decide
theorem test_decode_shiftRows : decode .shiftrows (0 :: plainBytes8) = .ok (.shiftRows plain8) [] := by decide
theorem test_decode_invShiftRows : decode .shiftrows (1 :: plainBytes8) = .ok (.invShiftRows plain8) [] := by decide
theorem test_decode_mixColumns : decode .mixcolumns (0 :: plainBytes8) = .ok (.mixColumns plain8) [] := by decide
theorem test_decode_invMixColumns : decode .mixcolumns (1 :: plainBytes8) = .ok (.invMixColumns plain8) [] := by decide
/-- R37: zero bits, `d_in` then `rk_in`. -/
theorem test_decode_addRoundKey :
    decode .addroundkey (plainBytes8 ++ bytes8) = .ok (.addRoundKey plain8 key8) [] := by decide
/-- R38: index 1010 is KEYSTEP 10. -/
theorem test_decode_keyStep : decode .kx [0b1010] = .ok (.keyStep 10) [] := by decide
/-- R39: `mode_r = 0`, `cnt = 0`. -/
theorem test_decode_encInit : decode .rs [0b00000] = .ok .encInit [] := by decide
/-- R39: `mode_r = 0`, `cnt = 9`. -/
theorem test_decode_encRound : decode .rs [0b01001] = .ok (.encRound 9) [] := by decide
/-- R39: `mode_r = 0`, `cnt = 10`. -/
theorem test_decode_encFinal : decode .rs [0b01010] = .ok .encFinal [] := by decide
/-- R39: `mode_r = 1`, `cnt = 0`. -/
theorem test_decode_decInit : decode .rs [0b10000] = .ok .decInit [] := by decide
/-- R39: `mode_r = 1`, `cnt = 1`. -/
theorem test_decode_decRound : decode .rs [0b10001] = .ok (.decRound 1) [] := by decide
/-- R39: `mode_r = 1`, `cnt = 10`. -/
theorem test_decode_decFinal : decode .rs [0b11010] = .ok .decFinal [] := by decide

/-- R41: reserved vectors are rejected by name. -/
theorem test_decode_rejects_reserved :
    decode .kx [0b0000] = .rejected .reservedKx ∧ decode .kx [0b1011] = .rejected .reservedKx ∧
    decode .rs [0b01011] = .rejected .reservedRs ∧ decode .rs [0b11111] = .rejected .reservedRs := by decide
/-- Bytes that are no vector of the format, or end early. -/
theorem test_decode_rejects_bad_bytes :
    decode .kx [] = .rejected .truncated ∧ decode .cmd (0b010 :: bytes8) = .rejected .truncated ∧
    decode .cmd (0b1000 :: (bytes8 ++ bytes8)) = .rejected .beyondFormat ∧
    decode .rs [0b100000] = .rejected .beyondFormat := by decide

/-! The host's two questions, on the numbers of the opcode table (log entry 6). -/

theorem test_decodeTableWord :
    decodeTableWord 3 0b100 = some .rst ∧ decodeTableWord 3 0b010 = some (.enc 0 0) ∧
    decodeTableWord 5 0b01010 = some .encFinal ∧ decodeTableWord 5 0b11010 = some .decFinal ∧
    decodeTableWord 0 0 = some (.addRoundKey 0 0) := by decide
/-- The very next step of a core right after reset runs the placed ENC (accepted: KEXP, 1). -/
theorem test_withFetchWord_enc :
    nextHas (step (State.reset.withFetchWord 3 0b010)) (fun t => control t == (.kexp, 1, 0)) = true := by decide
/-- The very next step runs the placed DEC_FINAL (done). -/
theorem test_withFetchWord_decFinal :
    nextHas (step (State.reset.withFetchWord 5 0b11010)) (fun t => control t == (.idle, 0, 1)) = true := by decide

/-! Tables and GF(2^8): section 2.1 and 2.2. -/

theorem test_xtime_and_products :
    xtime 0x57 = 0xae ∧ xtime 0xff = 0xe5 ∧ mul3 0x7f = 0x81 ∧ mul9 0x8d = 0x89 ∧ mul11 0x80 = 0xf7 ∧
    mul13 0xff = 0x97 ∧ mul14 0xae = 0xce := by decide
theorem test_sbox : sbox 0x10 = 0xca ∧ sbox 0xc9 = 0xdd ∧ invSbox 0xfe = 0x0c ∧ invSbox 0x00 = 0x52 := by decide

/-! Format SEL: section 2.3. -/

theorem test_subBytes :
    nextHas (exec (.subBytes 0xd4bf5d30e0b452aeb84111f11e2798e5) State.reset)
      (fun t => t.subyte.dOut == 0x48084c04e18d00e46c8382a172cc46d9 && t.sR == 0) = true := by decide
theorem test_invSubBytes :
    nextHas (exec (.invSubBytes 0xd4bf5d30e0b452aeb84111f11e2798e5) State.reset)
      (fun t => t.subyte.dOut == 0x19f48d08a0c648be9af8e32be93de22a) = true := by decide
theorem test_shiftRows :
    nextHas (exec (.shiftRows plain8) State.reset)
      (fun t => t.shiftrows.dOut == 0x0055aaff4499ee3388dd2277cc1166bb) = true := by decide
theorem test_invShiftRows :
    nextHas (exec (.invShiftRows plain8) State.reset)
      (fun t => t.shiftrows.dOut == 0x00ddaa774411eebb885522ffcc996633) = true := by decide
theorem test_mixColumns :
    nextHas (exec (.mixColumns 0xd4bf5d30e0b452aeb84111f11e2798e5) State.reset)
      (fun t => t.mixcolumns.dOut == 0x046681e5e0cb199a48f8d37a2806264c) = true := by decide
theorem test_invMixColumns :
    nextHas (exec (.invMixColumns 0x046681e5e0cb199a48f8d37a2806264c) State.reset)
      (fun t => t.mixcolumns.dOut == 0xd4bf5d30e0b452aeb84111f11e2798e5) = true := by decide
theorem test_invMixWord : invMixWord ⟨0x01, 0x00, 0x00, 0x00⟩ = ⟨0x0e, 0x09, 0x0d, 0x0b⟩ := by decide
theorem test_addRoundKey :
    nextHas (exec (.addRoundKey plain8 key8) State.reset)
      (fun t => t.addroundkey.dOut == 0x00102030405060708090a0b0c0d0e0f0) = true := by decide

/-! Format KX: section 2.4 and rows 2.8.5, 2.8.6. -/

theorem test_keyStep_first :
    keyStep 0x2b7e151628aed2a6abf7158809cf4f3c 1 = some 0xa0fafe1788542cb123a339392a6c7605 := by decide
theorem test_keyStep_last :
    nextHas (exec (.keyStep 10) { working 0 with phase := .kexp, cnt := 10, rk := schedule8.set 10 0 })
      (fun t => t.rk == schedule8 && control t == (.rnd, 0, 0)) = true := by decide

/-! Format RS: section 2.7. -/

theorem test_encInit :
    nextHas (exec .encInit (working plain8))
      (fun t => t.sR == 0x00102030405060708090a0b0c0d0e0f0 && t.cnt == 1) = true := by decide
theorem test_encRound :
    nextHas (exec (.encRound 1) (working 0x00102030405060708090a0b0c0d0e0f0))
      (fun t => t.sR == 0x89d810e8855ace682d1843d8cb128fe4 && t.cnt == 2 &&
        t.shiftrows.dOut == 0x6353e08c0960e104cd70b751bacad0e7) = true := by decide +kernel
theorem test_encFinal :
    nextHas (exec .encFinal (working 0xbd6e7c3df2b5779e0b61216e8b10b689))
      (fun t => t.dout == some cipher8 && control t == (.idle, 0, 1)) = true := by decide
theorem test_decInit :
    nextHas (exec .decInit (working cipher8))
      (fun t => t.sR == 0xbd6e7c3df2b5779e0b61216e8b10b689 && t.cnt == 1) = true := by decide
theorem test_decRound :
    nextHas (exec (.decRound 1) (working 0xbd6e7c3df2b5779e0b61216e8b10b689))
      (fun t => t.sR == 0xfde3bad205e5d0d73547964ef1fe37f1 &&
        t.mixcolumns.dOut == 0x54d990a16ba09ab596bbf40ea111702f) = true := by decide +kernel
theorem test_decFinal :
    nextHas (exec .decFinal (working 0x00102030405060708090a0b0c0d0e0f0))
      (fun t => t.dout == some plain8 && control t == (.idle, 0, 1)) = true := by decide
/-- R37: the first round step of a decryption feeds every `inv`, the bypassed unit's too, with `mode_r` = 1. -/
theorem test_selects_decInit :
    nextHas (step (cmdAt 0 0 0 .rnd 0 0 1)) (fun t => t.subyte.inv == 1 && t.shiftrows.inv == 1 &&
      t.mixcolumns.inv == 1 && t.mixcolumns.dOut == 0) = true := by decide
/-- R37: ENC_FINAL, after a decryption left the units at 1, feeds the bypassed unit 0. -/
theorem test_selects_encFinal :
    nextHas (exec .encFinal ((working plain8).driveSelects 1)) (fun t => t.subyte.inv == 0 && t.shiftrows.inv == 0 &&
      t.mixcolumns.inv == 0) = true := by decide
/-- A reserved index faults (log entry 10 for 0 and 10). -/
theorem test_rounds_out_of_range :
    faults (exec (.encRound 11) State.reset) .rnd 11 = true ∧ faults (exec (.decRound 0) State.reset) .rnd 0 = true ∧
    faults (exec (.keyStep 0) State.reset) .kexp 0 = true := by decide

/-! Format CMD: the rows of section 2.8, one step each. -/

/-- Rows 2.8.11 to 2.8.13 and 2.8.18. -/
theorem test_rst :
    nextHas (step (cmdAt 1 0 0 .rnd 4)) (fun t => control t == (.idle, 0, 0)) = true ∧
    nextHas (step (cmdAt 1 1 1 .kexp 3)) (fun t => control t == (.idle, 0, 0) && t.rk == State.reset.rk) = true ∧
    nextHas (step (cmdAt 1 1 0 .idle 0 1)) (fun t => control t == (.idle, 0, 0)) = true ∧
    nextHas (step (cmdAt 1 0 1 .reserved 7 1)) (fun t => control t == (.idle, 0, 0)) = true := by decide
/-- Rows 2.8.1, 2.8.2, 2.8.7 and 2.8.8. -/
theorem test_nop :
    nextHas (step (cmdAt 0 0 0 .idle 0)) (fun t => control t == (.idle, 0, 0)) = true ∧
    nextHas (step (cmdAt 0 0 1 .idle 0 1)) (fun t => control t == (.idle, 0, 1) && t.dout == some 0) = true ∧
    nextHas (step (cmdAt 0 0 0 .rnd 0)) (fun t => control t == (.rnd, 1, 0)) = true ∧
    nextHas (step (cmdAt 0 0 0 .rnd 9 0 1)) (fun t => control t == (.rnd, 10, 0)) = true := by decide
/-- Row 2.8.3. -/
theorem test_enc_accepted :
    nextHas (step (cmdAt 0 1 0 .idle 0)) (fun t => control t == (.kexp, 1, 0) && t.busy == 1 && t.modeR == 0 &&
      t.rk[0] == key8 && t.sR == plain8) = true := by decide
/-- Row 2.8.10: a start in the completion step is dropped. -/
theorem test_enc_dropped :
    nextHas (step (cmdAt 0 1 0 .rnd 10)) (fun t => control t == (.idle, 0, 1) && t.rk[0] == 0) = true := by decide
/-- Row 2.8.4. -/
theorem test_dec_accepted :
    nextHas (step (cmdAt 0 1 1 .idle 0 1)) (fun t => control t == (.kexp, 1, 0) && t.modeR == 1 && t.dout == none) =
      true := by decide
/-- Row 2.8.5: a start in phase KEXP is ignored. -/
theorem test_dec_ignored :
    nextHas (step (cmdAt 0 1 1 .kexp 5)) (fun t => control t == (.kexp, 6, 0) && t.modeR == 0 && t.rk[0] == 0 &&
      t.rk[5] == (keyStep 0 5).getD 0) = true := by decide
/-- Rows 2.8.14 to 2.8.17. -/
theorem test_reserved_control_states :
    faults (step (cmdAt 0 0 0 .idle 3)) .idle 3 = true ∧ faults (step (cmdAt 0 1 0 .kexp 0)) .kexp 0 = true ∧
    faults (step (cmdAt 0 1 1 .kexp 12)) .kexp 12 = true ∧ faults (step (cmdAt 0 0 0 .rnd 11)) .rnd 11 = true ∧
    faults (step (cmdAt 0 0 1 .reserved 0)) .reserved 0 = true := by decide

/-! The block functions: sections 1.5 and 2.5. -/

theorem test_expandKey : expandKey key8 = schedule8 := by decide +kernel
theorem test_encrypt : encrypt plain8 key8 = cipher8 := by decide +kernel
theorem test_decrypt : decrypt cipher8 key8 = plain8 := by decide +kernel
/-- Section 2.6, key and block all ones. -/
theorem test_encrypt_ones : encrypt (BitVec.allOnes 128) (BitVec.allOnes 128) = 0xbcbf217cb280cf30b2517052193ab979 := by
  decide +kernel

/-! Witnesses: for every statement of the obligations that has hypotheses, concrete values that meet them, one for each
clause and at the ends of its range. Each is named after its statement. -/

/-- An idle core with the result of an earlier operation, another schedule and a full script of NOPs behind its command. -/
def busyHost (start mode : Bit) : State :=
  { working cipher8 with
    doneR := 1
    inputs := { rst := 0, start := start, mode := mode, keyIn := key8, din := plain8 }
    script := List.replicate 21 HostInputs.quiet }

/-- The §8 schedule written up to the last key step, which is next. -/
def lastKeyStep : State := { working plain8 with phase := .kexp, cnt := 10, rk := schedule8.set 10 0 }

theorem witness_RconHoldsItsTenEntries :
    ((1 : BitVec 4) ≤ 1 ∧ (1 : BitVec 4) ≤ 9) ∧ ((1 : BitVec 4) ≤ 9 ∧ (9 : BitVec 4) ≤ 9) := by decide

theorem witness_ShiftRowsRotatesRowsLeft :
    ∃ t, exec (.shiftRows 0x01234567012345670123456701234567) State.reset = .next t ∧
      wordOf 0x01234567012345670123456701234567 0 = wordOf 0x01234567012345670123456701234567 1 ∧
      wordOf 0x01234567012345670123456701234567 1 = wordOf 0x01234567012345670123456701234567 2 ∧
      wordOf 0x01234567012345670123456701234567 2 = wordOf 0x01234567012345670123456701234567 3 :=
  ⟨_, rfl, by decide⟩

theorem witness_KeyStepFunctionBuildsTheWords :
    ((1 : BitVec 4) ≤ 1 ∧ (1 : BitVec 4) ≤ 10) ∧ ((1 : BitVec 4) ≤ 10 ∧ (10 : BitVec 4) ≤ 10) := by decide

theorem witness_KeyStepWritesOneRoundKey :
    ((1 : BitVec 4) ≤ 1 ∧ (1 : BitVec 4) ≤ 10) ∧ ((1 : BitVec 4) ≤ 10 ∧ (10 : BitVec 4) ≤ 10) ∧
    ((at' .kexp 1).phase = .kexp ∧ 1 ≤ (at' .kexp 1).cnt ∧ (at' .kexp 1).cnt ≤ 10) ∧
    (lastKeyStep.phase = .kexp ∧ 1 ≤ lastKeyStep.cnt ∧ lastKeyStep.cnt ≤ 10) := by decide

theorem witness_KxIndexSelectsTheKeyStep :
    ((1 : BitVec 4) ≤ 1 ∧ (1 : BitVec 4) ≤ 10) ∧ ((1 : BitVec 4) ≤ 10 ∧ (10 : BitVec 4) ≤ 10) ∧
    ((0 : BitVec 4) = 0 ∨ 11 ≤ (0 : BitVec 4)) ∧ ((11 : BitVec 4) = 0 ∨ 11 ≤ (11 : BitVec 4)) ∧
    ((15 : BitVec 4) = 0 ∨ 11 ≤ (15 : BitVec 4)) ∧ (at' .kexp 0).phase = .kexp := by decide

theorem witness_EncInitAddsRoundKeyZero :
    ∃ t, (working key8).rk[0]? = some (working key8).sR ∧ exec .encInit (working key8) = .next t :=
  ⟨_, by decide, rfl⟩

theorem witness_EncRoundRunsOneMiddleRound :
    ((1 : BitVec 4) ≤ 1 ∧ (1 : BitVec 4) ≤ 9) ∧ ((1 : BitVec 4) ≤ 9 ∧ (9 : BitVec 4) ≤ 9) := by decide

theorem witness_DecRoundRunsOneMiddleInverseRound :
    ((1 : BitVec 4) ≤ 1 ∧ (1 : BitVec 4) ≤ 9) ∧ ((1 : BitVec 4) ≤ 9 ∧ (9 : BitVec 4) ≤ 9) := by decide

theorem witness_RoundPhaseRunsTheSelectedRound :
    (∀ c ∈ [0, 1, 9, 10, 11, 15], ∀ m ∈ [0, 1], (at' .rnd c 0 m).phase = .rnd ∧ (at' .rnd c 0 m).cnt = c ∧
      (at' .rnd c 0 m).modeR = m) ∧
    1 ≤ (at' .rnd 1).cnt ∧ (at' .rnd 9).cnt ≤ 9 ∧ 11 ≤ (at' .rnd 11).cnt := by decide

theorem witness_RoundStepsAreChainsOfStageOperations :
    (working plain8).rk[0]? = some key8 ∧
    (1 ≤ (1 : BitVec 4) ∧ (1 : BitVec 4) ≤ 9 ∧
      (working plain8).rk[(1 : BitVec 4).toNat]? = some 0xd6aa74fdd2af72fadaa678f1d6ab76fe) ∧
    (1 ≤ (9 : BitVec 4) ∧ (9 : BitVec 4) ≤ 9 ∧
      (working plain8).rk[(9 : BitVec 4).toNat]? = some 0x549932d1f08557681093ed9cbe2c974e) ∧
    (working plain8).rk[10]? = some 0x13111d7fe3944a17f307a78b4d2b30c5 ∧
    (working plain8).rk[10 - (1 : BitVec 4).toNat]? = some 0x549932d1f08557681093ed9cbe2c974e ∧
    (working plain8).rk[10 - (9 : BitVec 4).toNat]? = some 0xd6aa74fdd2af72fadaa678f1d6ab76fe := by decide

theorem witness_RstResetsTheControlOnly :
    (∃ t, exec .rst (at' .reserved 5 1 1) = .next t) ∧ (cmdAt 1 0 0 .idle 0).inputs.rst = 1 ∧
    (cmdAt 1 1 1 .kexp 3).inputs.rst = 1 := ⟨⟨_, rfl⟩, rfl, rfl⟩

theorem witness_NopLeavesAnIdleCoreAlone :
    ((at' .idle 0 1).phase = .idle ∧ (at' .idle 0 1).cnt = 0) ∧ (at' .kexp 10).phase = .kexp ∧
    ((at' .rnd 10 0 1).phase = .rnd ∧ decodeRs ((at' .rnd 10 0 1).modeR ++ (at' .rnd 10 0 1).cnt) = some .decFinal) ∧
    ((at' .rnd 0).phase = .rnd ∧ decodeRs ((at' .rnd 0).modeR ++ (at' .rnd 0).cnt) = some .encInit) ∧
    ((cmdAt 0 0 1 .idle 0).inputs.rst = 0 ∧ (cmdAt 0 0 1 .idle 0).inputs.start = 0) := by decide

theorem witness_EncIsAcceptedInIdle :
    ((at' .idle 0 1).phase = .idle ∧ (at' .idle 0 1).cnt = 0) ∧
    ((cmdAt 0 1 0 .idle 0).inputs.rst = 0 ∧ (cmdAt 0 1 0 .idle 0).inputs.start = 1 ∧
      (cmdAt 0 1 0 .idle 0).inputs.mode = 0) := by decide

theorem witness_DecIsAcceptedInIdle :
    ((at' .idle 0).phase = .idle ∧ (at' .idle 0).cnt = 0) ∧
    ((cmdAt 0 1 1 .idle 0).inputs.rst = 0 ∧ (cmdAt 0 1 1 .idle 0).inputs.start = 1 ∧
      (cmdAt 0 1 1 .idle 0).inputs.mode = 1) := by decide

theorem witness_ABusyCoreIgnoresCommands :
    ((at' .kexp 1).phase = .kexp ∨ (at' .kexp 1).phase = .rnd) ∧
    ((at' .rnd 10).phase = .kexp ∨ (at' .rnd 10).phase = .rnd) := by decide

theorem witness_StepDispatch_commands :
    (cmdAt 1 1 0 .reserved 3).inputs.rst = 1 ∧
    ((cmdAt 0 1 0 .idle 1).inputs.rst = 0 ∧ (cmdAt 0 1 0 .idle 1).phase = .idle ∧ (cmdAt 0 1 0 .idle 1).cnt ≠ 0) ∧
    (∀ st ∈ [0, 1], ∀ m ∈ [0, 1], (cmdAt 0 st m .idle 0).inputs.rst = 0 ∧ (cmdAt 0 st m .idle 0).phase = .idle ∧
      (cmdAt 0 st m .idle 0).cnt = 0 ∧ (cmdAt 0 st m .idle 0).inputs.start = st ∧
      (cmdAt 0 st m .idle 0).inputs.mode = m) := by decide

theorem witness_StepDispatch_busy :
    (∀ c ∈ [1, 10], (cmdAt 0 1 1 .kexp c).inputs.rst = 0 ∧ (cmdAt 0 1 1 .kexp c).phase = .kexp ∧
      1 ≤ (cmdAt 0 1 1 .kexp c).cnt ∧ (cmdAt 0 1 1 .kexp c).cnt ≤ 10) ∧
    (∀ c ∈ [0, 10], (cmdAt 0 1 1 .rnd c).inputs.rst = 0 ∧ (cmdAt 0 1 1 .rnd c).phase = .rnd ∧
      (cmdAt 0 1 1 .rnd c).cnt ≤ 10) := by decide

theorem witness_StepDispatch_reserved :
    (cmdAt 0 1 1 .reserved 0).phase = .reserved ∧
    (∀ c ∈ [0, 11, 15], (cmdAt 0 1 1 .kexp c).inputs.rst = 0 ∧ (cmdAt 0 1 1 .kexp c).phase = .kexp ∧
      ((cmdAt 0 1 1 .kexp c).cnt = 0 ∨ 11 ≤ (cmdAt 0 1 1 .kexp c).cnt)) ∧
    (∀ c ∈ [11, 15], (cmdAt 0 1 1 .rnd c).inputs.rst = 0 ∧ (cmdAt 0 1 1 .rnd c).phase = .rnd ∧
      11 ≤ (cmdAt 0 1 1 .rnd c).cnt) := by decide

theorem witness_StepRunsTheSampledCommand :
    (∃ t, exec (cmdAt 0 1 0 .idle 0).fetch (cmdAt 0 1 0 .idle 0) = .next t) ∧
    exec (cmdAt 0 0 0 .rnd 11).fetch (cmdAt 0 0 0 .rnd 11) = .fault (.unreachableControlState .rnd 11) ∧
    (cmdAt 0 1 0 .idle 0).script = HostInputs.quiet :: [] ∧ State.reset.script = [] :=
  ⟨⟨_, rfl⟩, rfl, rfl, rfl⟩

theorem witness_DecodeUndoesEncode :
    Instr.wf (.enc key8 plain8) = true ∧ Instr.wf (.subBytes plain8) = true ∧ Instr.wf (.addRoundKey plain8 key8) = true ∧
    Instr.wf (.keyStep 1) = true ∧ Instr.wf (.keyStep 10) = true ∧ Instr.wf (.encRound 1) = true ∧
    Instr.wf (.encRound 9) = true ∧ Instr.wf (.decRound 1) = true ∧ Instr.wf (.decRound 9) = true := by decide

theorem witness_DecoderAnswersOnlyWellFormedOperationsOfItsPoint :
    decode .subyte (1 :: (plainBytes8 ++ [0xff])) = .ok (.invSubBytes plain8) [0xff] ∧
    decode .rs [0b11001, 0x00] = .ok (.decRound 9) [0x00] := by decide

theorem witness_KxAndRsVectorsHaveOneMeaning :
    decodeKx 1 = some (.keyStep 1) ∧ decodeKx 10 = some (.keyStep 10) ∧ decodeRs 0b00001 = some (.encRound 1) ∧
    decodeRs 0b11010 = some .decFinal := by decide

theorem witness_OutputsAreFunctionsOfTheState : (at' .idle 0 1).doneR = 1 ∧ (at' .rnd 3).doneR = 0 := by decide

theorem witness_ReservedControlStatesFaultAndOnlyThey :
    ((cmdAt 0 0 0 .idle 15).inputs.rst = 0 ∧ ¬ (cmdAt 0 0 0 .idle 15).legal) ∧
    ((cmdAt 0 0 0 .kexp 0).inputs.rst = 0 ∧ ¬ (cmdAt 0 0 0 .kexp 0).legal) ∧
    ((cmdAt 0 0 0 .kexp 11).inputs.rst = 0 ∧ ¬ (cmdAt 0 0 0 .kexp 11).legal) ∧
    ((cmdAt 0 0 0 .rnd 11).inputs.rst = 0 ∧ ¬ (cmdAt 0 0 0 .rnd 11).legal) ∧
    ((cmdAt 0 0 0 .reserved 0).inputs.rst = 0 ∧ ¬ (cmdAt 0 0 0 .reserved 0).legal) := by decide

theorem witness_RoundOperationsOutsideTheirRangeFault :
    ((0 : BitVec 4) = 0 ∨ 10 ≤ (0 : BitVec 4)) ∧ ((10 : BitVec 4) = 0 ∨ 10 ≤ (10 : BitVec 4)) ∧
    ((15 : BitVec 4) = 0 ∨ 10 ≤ (15 : BitVec 4)) ∧ 11 ≤ (11 : BitVec 4) := by decide

theorem witness_ResetRecoversFromEveryState :
    (cmdAt 1 1 1 .rnd 10).inputs.rst = 1 ∧ (cmdAt 1 0 0 .reserved 9 1).inputs.rst = 1 := by decide

theorem witness_CommandsAndStagesKeepTheRestOfTheState_commands :
    (∃ t, exec .rst (at' .kexp 4) = .next t) ∧
    (State.reset.phase = .idle ∧ State.reset.cnt = 0 ∧ (∃ t, exec .nop State.reset = .next t) ∧
      (∃ t, exec (.enc key8 plain8) State.reset = .next t) ∧ (∃ t, exec (.dec key8 plain8) State.reset = .next t)) :=
  ⟨⟨_, rfl⟩, rfl, rfl, ⟨_, rfl⟩, ⟨_, rfl⟩, ⟨_, rfl⟩⟩

theorem witness_CommandsAndStagesKeepTheRestOfTheState_stages :
    (∃ t, exec (.subBytes plain8) (at' .rnd 2) = .next t) ∧ (∃ t, exec (.invSubBytes plain8) (at' .rnd 2) = .next t) ∧
    (∃ t, exec (.shiftRows plain8) (at' .rnd 2) = .next t) ∧ (∃ t, exec (.invShiftRows plain8) (at' .rnd 2) = .next t) ∧
    (∃ t, exec (.mixColumns plain8) (at' .rnd 2) = .next t) ∧
    (∃ t, exec (.invMixColumns plain8) (at' .rnd 2) = .next t) ∧
    (∃ t, exec (.addRoundKey plain8 key8) (at' .rnd 2) = .next t) ∧
    (∃ t, exec (.keyStep 1) (at' .kexp 1) = .next t) ∧ (∃ t, exec (.keyStep 10) (at' .kexp 10) = .next t) :=
  ⟨⟨_, rfl⟩, ⟨_, rfl⟩, ⟨_, rfl⟩, ⟨_, rfl⟩, ⟨_, rfl⟩, ⟨_, rfl⟩, ⟨_, rfl⟩, ⟨_, rfl⟩, ⟨_, rfl⟩⟩

theorem witness_EveryStepKeepsTheControlLegal :
    (State.reset.legal ∧ ∃ t, step State.reset = .next t) ∧
    ((cmdAt 0 0 0 .kexp 10).legal ∧ ∃ t, step (cmdAt 0 0 0 .kexp 10) = .next t) ∧
    ((cmdAt 0 0 0 .rnd 10).legal ∧ ∃ t, step (cmdAt 0 0 0 .rnd 10) = .next t) :=
  ⟨⟨by decide, _, rfl⟩, ⟨by decide, _, rfl⟩, ⟨by decide, _, rfl⟩⟩

theorem witness_ControlFollowsTheFixedPath_idle :
    ((cmdAt 0 0 0 .idle 0 1).legal ∧ (cmdAt 0 0 0 .idle 0 1).inputs.rst = 0 ∧
      ∃ t, step (cmdAt 0 0 0 .idle 0 1) = .next t) ∧
    ((cmdAt 0 1 1 .idle 0 1).legal ∧ (cmdAt 0 1 1 .idle 0 1).inputs.rst = 0 ∧
      ∃ t, step (cmdAt 0 1 1 .idle 0 1) = .next t) :=
  ⟨⟨by decide, rfl, _, rfl⟩, ⟨by decide, rfl, _, rfl⟩⟩

theorem witness_ControlFollowsTheFixedPath_busy :
    ((cmdAt 0 1 0 .kexp 9).legal ∧ (cmdAt 0 1 0 .kexp 9).inputs.rst = 0 ∧ ∃ t, step (cmdAt 0 1 0 .kexp 9) = .next t) ∧
    ((cmdAt 0 1 0 .kexp 10).legal ∧ (cmdAt 0 1 0 .kexp 10).inputs.rst = 0 ∧
      ∃ t, step (cmdAt 0 1 0 .kexp 10) = .next t) ∧
    ((cmdAt 0 1 0 .rnd 0).legal ∧ (cmdAt 0 1 0 .rnd 0).inputs.rst = 0 ∧ ∃ t, step (cmdAt 0 1 0 .rnd 0) = .next t) ∧
    ((cmdAt 0 1 0 .rnd 10).legal ∧ (cmdAt 0 1 0 .rnd 10).inputs.rst = 0 ∧
      ∃ t, step (cmdAt 0 1 0 .rnd 10) = .next t) :=
  ⟨⟨by decide, rfl, _, rfl⟩, ⟨by decide, rfl, _, rfl⟩, ⟨by decide, rfl, _, rfl⟩, ⟨by decide, rfl, _, rfl⟩⟩

theorem witness_EveryStepKeepsBusyAndDoneExclusive :
    ((cmdAt 0 1 0 .idle 0 1).flagsExclusive ∧ ∃ t, step (cmdAt 0 1 0 .idle 0 1) = .next t) ∧
    ((cmdAt 0 0 0 .rnd 10).flagsExclusive ∧ ∃ t, step (cmdAt 0 0 0 .rnd 10) = .next t) :=
  ⟨⟨by decide, _, rfl⟩, ⟨by decide, _, rfl⟩⟩

theorem witness_EveryStepKeepsTheUnitsAnswering :
    ((cmdAt 0 0 0 .rnd 1).unitsAnswer ∧ ∃ t, step (cmdAt 0 0 0 .rnd 1) = .next t) ∧
    ((cmdAt 0 1 1 .idle 0).selectsTied ∧ ∃ t, step (cmdAt 0 1 1 .idle 0) = .next t) ∧
    ((cmdAt 0 0 0 .rnd 10).selectsTied ∧ ∃ t, step (cmdAt 0 0 0 .rnd 10) = .next t) :=
  ⟨⟨by decide +kernel, _, rfl⟩, ⟨by decide, _, rfl⟩, ⟨by decide, _, rfl⟩⟩

theorem witness_EverySelectInputIsDrivenByTheMode :
    ∀ c ∈ [0, 1, 9, 10], ∀ m ∈ [0, 1], (at' .rnd c 0 m).phase = .rnd ∧ (at' .rnd c 0 m).cnt ≤ 10 ∧
      (at' .rnd c 0 m).modeR = m := by decide

theorem witness_EveryStepKeepsTheScheduleOfTheRunningKey :
    (lastKeyStep.legal ∧ lastKeyStep.scheduleHeld ∧ ∃ t, step lastKeyStep = .next t) ∧
    ((at' .idle 0).legal ∧ (at' .idle 0).scheduleHeld ∧ ∃ t, step (at' .idle 0) = .next t) :=
  ⟨⟨by decide, by decide +kernel, _, rfl⟩, ⟨by decide, by decide +kernel, _, rfl⟩⟩

theorem witness_ExpandKeyChainsTheKeySteps : ((1 : Nat) ≤ 1 ∧ 1 ≤ 10) ∧ ((1 : Nat) ≤ 10 ∧ 10 ≤ 10) := by decide

theorem witness_AnAcceptedCommandIsAnsweredAfter22Steps :
    ((busyHost 1 0).phase = .idle ∧ (busyHost 1 0).cnt = 0 ∧
      (busyHost 1 0).inputs = { rst := 0, start := 1, mode := 0, keyIn := key8, din := plain8 } ∧
      21 ≤ (busyHost 1 0).script.length ∧ noReset ((busyHost 1 0).script.take 21)) ∧
    ((busyHost 1 1).phase = .idle ∧ (busyHost 1 1).cnt = 0 ∧
      (busyHost 1 1).inputs = { rst := 0, start := 1, mode := 1, keyIn := key8, din := plain8 } ∧
      21 ≤ (busyHost 1 1).script.length ∧ noReset ((busyHost 1 1).script.take 21)) := by decide

theorem witness_RoundStepsComputeTheBlockFunctionsAndMirror : (working plain8).rk = expandKey key8 :=
  test_expandKey.symm

/-- Two cores that share nothing but the command. -/
theorem witness_TheResultDependsOnTheSampledOperandsOnly :
    let s := busyHost 1 1
    let u := State.reset.load (AsmLine.expand (0, 0) (.decrypt key8 plain8))
    s.phase = .idle ∧ s.cnt = 0 ∧ u.phase = .idle ∧ u.cnt = 0 ∧ s.inputs = u.inputs ∧ s.inputs.rst = 0 ∧
      s.inputs.start = 1 ∧ 21 ≤ s.script.length ∧ noReset (s.script.take 21) ∧ 21 ≤ u.script.length ∧
      noReset (u.script.take 21) ∧ s.rk ≠ u.rk ∧ s.sR ≠ u.sR := by decide

/-- Two cores that differ in key, data, mode and registers. -/
theorem witness_ControlTimingIsIndependentOfKeysAndData :
    let s := State.reset.load (AsmLine.expand (0, 0) (.encrypt 0 0))
    let u := (working cipher8).load (AsmLine.expand (key8, key8) (.decrypt key8 plain8))
    s.phase = u.phase ∧ s.cnt = u.cnt ∧ s.doneR = u.doneR ∧ s.inputs.rst = u.inputs.rst ∧
      s.inputs.start = u.inputs.start ∧
      s.script.map (fun i => (i.rst, i.start)) = u.script.map (fun i => (i.rst, i.start)) ∧
      22 ≤ s.script.length + 1 ∧ s.rk ≠ u.rk ∧ s.inputs.mode ≠ u.inputs.mode := by decide

theorem witness_AnIdleCoreHoldsItsResult :
    let s := busyHost 0 1
    s.phase = .idle ∧ s.cnt = 0 ∧ s.inputs.rst = 0 ∧ s.inputs.start = 0 ∧
      (∀ i ∈ s.script.take (22 - 1), i.rst = 0 ∧ i.start = 0) ∧ 22 ≤ s.script.length + 1 ∧
      s.dout = some cipher8 := by decide

theorem witness_EncryptAndDecryptPseudoInstructionsDeliver : (busyHost 0 0).phase = .idle ∧ (busyHost 0 0).cnt = 0 := by
  decide

theorem witness_WaitDoneEndsAtTheCompletion :
    (busyHost 0 0).done = 1 ∧ ((at' .kexp 1).legal ∧ (at' .kexp 1).busy = 1) ∧
    ((at' .rnd 10).legal ∧ (at' .rnd 10).busy = 1) := by decide

end Sys2Proof.Tests
end

section
/-! What the selection points of formats CMD and SEL select, and the mode at the select inputs of a round step
(spec/30_encoding.md R36, R37). -/

namespace Sys2Proof.Machine

/-! ## Format CMD -/

/-- The table of R36 on the three bits of a CMD vector: what `fetch_eq` says of a core with these inputs. -/
theorem decodeCmd_append (rst start mode : Bit) (keyIn din : Block) :
    decodeCmd (rst ++ start ++ mode) keyIn din =
      if rst = 1 then .rst
      else if start = 0 then .nop
      else if mode = 0 then .enc keyIn din
      else .dec keyIn din :=
  fetch_eq { State.reset with inputs := ⟨rst, start, mode, keyIn, din⟩ }

/-- Settles O33, by the table on bits; the sampled command is that decoder on the input ports, by definition. -/
theorem cmdVectorDecodesByItsTable : Obligations.CmdVectorDecodesByItsTable := by
  refine ⟨fun st m k d => ?rst, fun m k d => ?nop, fun k d => ?enc, fun k d => ?dec, fun s => rfl⟩
  case rst => exact (decodeCmd_append 1 st m k d).trans rfl
  case nop => exact (decodeCmd_append 0 0 m k d).trans rfl
  case enc => exact (decodeCmd_append 0 1 0 k d).trans rfl
  case dec => exact (decodeCmd_append 0 1 1 k d).trans rfl

/-! ## Format SEL -/

/-- `addroundkey_stage` selects ADDROUNDKEY and nothing else (R37). -/
theorem point_eq_addroundkey_iff (i : Instr) : i.point = .addroundkey ↔ ∃ d k : Block, i = .addRoundKey d k := by
  constructor
  · intro h
    cases i with
    | addRoundKey d k => exact ⟨d, k, rfl⟩
    | _ => cases h
  · rintro ⟨d, k, rfl⟩
    rfl

/-- A NOP in phase RND with `cnt` in 0..10 is the round step, and answers a next state (R78, R83). -/
theorem exec_nop_rnd {s : State} (hp : s.phase = .rnd) (hc : s.cnt ≤ 10) :
    ∃ t, exec .nop s = .next t ∧ RoundWrites s t s.cnt := by
  obtain ⟨t, ht, hw⟩ := roundPhaseStep_next s hc
  exact ⟨t, (commandStep_rnd s hp).trans ht, hw⟩

/-- Settles O60: the SEL decoders compute on either value of `inv`, and what a round step writes puts every select input
at `mode_r`. -/
theorem everySelectInputIsDrivenByTheMode : Obligations.EverySelectInputIsDrivenByTheMode := by
  refine ⟨fun d => ⟨rfl, rfl, rfl, rfl, rfl, rfl⟩, point_eq_addroundkey_iff, fun s hp hc => ?selects⟩
  case selects =>
    obtain ⟨t, ht, hw⟩ := exec_nop_rnd hp hc
    exact ⟨t, ht, hw.selects⟩

end Sys2Proof.Machine
end

section
/-! The constant tables and `xtime` (spec/40_tables_gf.md R44-R47). That INV_SBOX undoes SBOX is the one fact that needs
every entry of both tables; the rest of R44 and R45 about inverses follows, because the bytes are finitely many. -/

namespace Sys2Proof.Machine

open Function

/-! ## SBOX and INV_SBOX -/

/-- INV_SBOX undoes SBOX: the 256 entries of one table looked up in the other. -/
theorem invSbox_leftInverse_sbox : LeftInverse invSbox sbox := by
  unfold LeftInverse
  decide +kernel

/-- SBOX is a bijection: it has a left inverse, and the bytes are finitely many (R44). -/
theorem sbox_bijective : Bijective sbox :=
  have hinj : Injective sbox := invSbox_leftInverse_sbox.injective
  ⟨hinj, Finite.injective_iff_surjective.mp hinj⟩

/-- SBOX undoes INV_SBOX: the left inverse of a surjective function is its right inverse too (R45). -/
theorem invSbox_rightInverse_sbox : RightInverse invSbox sbox :=
  invSbox_leftInverse_sbox.rightInverse_of_surjective sbox_bijective.surjective

/-- Settles O1: the entries are compared one by one, the bijection is `sbox_bijective`. -/
theorem sboxHoldsTheTable : Obligations.SboxHoldsTheTable := by
  refine ⟨?entries, sbox_bijective, ?checks⟩
  case entries => decide +kernel
  case checks => exact ⟨rfl, rfl, rfl, rfl⟩

/-- Settles O2: the inverse laws are the two lemmas above, the entries are compared one by one. -/
theorem invSboxInvertsTheSbox : Obligations.InvSboxInvertsTheSbox := by
  refine ⟨fun x => ⟨invSbox_leftInverse_sbox x, invSbox_rightInverse_sbox x⟩, ?entries⟩
  case entries => decide +kernel

/-! ## RCON -/

/-- Up to index 9 the next entry of the ROM is the double of this one (R46). -/
theorem rcon_succ : ∀ i : BitVec 4, 1 ≤ i → i ≤ 9 → rcon (i + 1) = (rcon i).map xtime := by decide

/-- The indices of a key step as a range. -/
theorem keyIndexOk_iff (i : BitVec 4) : keyIndexOk i = true ↔ 1 ≤ i ∧ i ≤ 10 := by
  simp [keyIndexOk]

/-- Settles O3: the ten entries compute, each doubles the one before, and the domain is that of the key step. -/
theorem rconHoldsItsTenEntries : Obligations.RconHoldsItsTenEntries :=
  ⟨rfl, rfl, rfl, rfl, rfl, rfl, rfl, rfl, rfl, rfl, rcon_succ,
    fun i => (rcon_isSome_iff i).trans (keyIndexOk_iff i)⟩

/-! ## xtime -/

/-- The formula of R47 on the bits of the byte: the low seven bits move up, the high bit selects the reduction. -/
theorem xtime_eq_bits (b : Byte) :
    xtime b = (b.extractLsb' 0 7 ++ 0#1) ^^^ (if b.extractLsb' 7 1 = 1#1 then 0x1b#8 else 0x00#8) := by
  have hshift : b <<< 1 = b.extractLsb' 0 7 ++ 0#1 := BitVec.shiftLeft_eq_concat_of_lt (by decide)
  simp only [xtime, hshift, BitVec.getLsbD_eq_extractLsb', beq_iff_eq, BitVec.ofNat_eq_ofNat]

/-- The reduction is linear in the bit that falls out. -/
theorem reduction_xor (p q : Bool) :
    (if (p ^^ q) then 0x1b else 0x00 : Byte) = (if p then 0x1b else 0x00) ^^^ (if q then 0x1b else 0x00) := by
  cases p <;> cases q <;> rfl

/-- xtime is linear over XOR: its shift is, and its reduction is (R47). -/
theorem xtime_xor (a b : Byte) : xtime (a ^^^ b) = xtime a ^^^ xtime b := by
  simp only [xtime, BitVec.shiftLeft_xor_distrib, BitVec.getLsbD_xor, reduction_xor]
  ac_rfl

/-- Settles O4: the formula on bits, linearity, and the four values of R47. -/
theorem xtimeDoublesModuloThePolynomial : Obligations.XtimeDoublesModuloThePolynomial :=
  ⟨xtime_eq_bits, xtime_xor, rfl, rfl, rfl, rfl⟩

end Sys2Proof.Machine
end

section
/-! The four round stages (spec/41_round_stages.md R51-R60). What a stage does to a block is said once, by byte, by grid
position or by word; that the inverse stages invert follows from the tables for SubBytes, from the column arithmetic for
ShiftRows, and for MixColumns from the fact that applying MixWord twice is the correction by `u` and `v` of R58, which
undoes itself. -/

namespace Sys2Proof.Machine

open Function

/-! ## The frame of a stage operation -/

/-- `subyte_stage` writes no register. -/
theorem registersKept_driveSubyte (s : State) (inv : Bit) (d : Block) : registersKept s (s.driveSubyte inv d) :=
  ⟨rfl, rfl, rfl, rfl, rfl, rfl⟩

/-- `shiftrows_stage` writes no register. -/
theorem registersKept_driveShiftrows (s : State) (inv : Bit) (d : Block) :
    registersKept s (s.driveShiftrows inv d) :=
  ⟨rfl, rfl, rfl, rfl, rfl, rfl⟩

/-- `mixcolumns_stage` writes no register. -/
theorem registersKept_driveMixcolumns (s : State) (inv : Bit) (d : Block) :
    registersKept s (s.driveMixcolumns inv d) :=
  ⟨rfl, rfl, rfl, rfl, rfl, rfl⟩

/-- `addroundkey_stage` writes no register. -/
theorem registersKept_driveAddroundkey (s : State) (d k : Block) : registersKept s (s.driveAddroundkey d k) :=
  ⟨rfl, rfl, rfl, rfl, rfl, rfl⟩

/-! ## SubBytes: one function on every byte -/

/-- A function on bytes applied to each of the sixteen bytes: the shape of both directions of `subyte_stage` (R50). -/
def mapBytes (f : Byte → Byte) (b : Block) : Block := blockOf fun n => f (byteOf b n)

theorem subBytes_eq_mapBytes : subBytes = mapBytes sbox := rfl

theorem invSubBytes_eq_mapBytes : invSubBytes = mapBytes invSbox := rfl

theorem byteOf_mapBytes (f : Byte → Byte) (b : Block) {n : Nat} (hn : n < 16) :
    byteOf (mapBytes f b) n = f (byteOf b n) :=
  byteOf_blockOf _ hn

/-- What undoes a function on bytes undoes it on every byte of a block. -/
theorem mapBytes_leftInverse {f g : Byte → Byte} (h : LeftInverse g f) : LeftInverse (mapBytes g) (mapBytes f) := by
  intro b
  refine block_ext fun n hn => ?_
  rw [byteOf_mapBytes g _ hn, byteOf_mapBytes f b hn, h]

/-- InvSubBytes undoes SubBytes (R52). -/
theorem invSubBytes_leftInverse_subBytes : LeftInverse invSubBytes subBytes :=
  mapBytes_leftInverse invSbox_leftInverse_sbox

/-- SubBytes undoes InvSubBytes (R52). -/
theorem subBytes_leftInverse_invSubBytes : LeftInverse subBytes invSubBytes :=
  mapBytes_leftInverse invSbox_rightInverse_sbox

/-- Settles O6: the answer byte by byte, and a function with an inverse on both sides is a bijection. -/
theorem subBytesSubstitutesEveryByte : Obligations.SubBytesSubstitutesEveryByte := by
  refine ⟨fun d s => ?answer, ?bijective⟩
  case answer =>
    exact ⟨_, rfl, registersKept_driveSubyte s 0 d, rfl, rfl, fun n hn => byteOf_mapBytes sbox d hn⟩
  case bijective =>
    exact ⟨invSubBytes_leftInverse_subBytes.injective, subBytes_leftInverse_invSubBytes.surjective⟩

/-- Settles O7: the answer byte by byte, and the two inverse laws. -/
theorem invSubBytesSubstitutesBack : Obligations.InvSubBytesSubstitutesBack := by
  refine ⟨fun d s => ?answer, fun b => ⟨invSubBytes_leftInverse_subBytes b, subBytes_leftInverse_invSubBytes b⟩⟩
  case answer =>
    exact ⟨_, rfl, registersKept_driveSubyte s 1 d, rfl, rfl, fun n hn => byteOf_mapBytes invSbox d hn⟩

/-! ## ShiftRows: a permutation of the grid -/

/-- Two blocks with the same byte at every row and column of the grid are equal (R5). -/
theorem block_ext_grid {a b : Block} (h : ∀ r < 4, ∀ c < 4, byteOf a (r + 4 * c) = byteOf b (r + 4 * c)) : a = b := by
  refine block_ext fun n hn => ?_
  have hgrid := h (n % 4) (by omega) (n / 4) (by omega)
  rwa [Nat.mod_add_div n 4] at hgrid

/-- A block built by row and column, read at row `r` and column `c` (R5). -/
theorem byteOf_blockOf_grid (f : Nat → Nat → Byte) {r c : Nat} (hr : r < 4) (hc : c < 4) :
    byteOf (blockOf fun n => f (n % 4) (n / 4)) (r + 4 * c) = f r c := by
  have hrow : (r + 4 * c) % 4 = r := by omega
  have hcol : (r + 4 * c) / 4 = c := by omega
  rw [byteOf_blockOf _ (by omega), hrow, hcol]

/-- ShiftRows on the grid (R54). -/
theorem byteOf_shiftRows (b : Block) {r c : Nat} (hr : r < 4) (hc : c < 4) :
    byteOf (shiftRows b) (r + 4 * c) = byteOf b (r + 4 * ((c + r) % 4)) :=
  byteOf_blockOf_grid (fun r c => byteOf b (gridIndex r ((c + r) % 4))) hr hc

/-- InvShiftRows on the grid (R55). -/
theorem byteOf_invShiftRows (b : Block) {r c : Nat} (hr : r < 4) (hc : c < 4) :
    byteOf (invShiftRows b) (r + 4 * c) = byteOf b (r + 4 * ((c + 4 - r) % 4)) :=
  byteOf_blockOf_grid (fun r c => byteOf b (gridIndex r ((c + 4 - r) % 4))) hr hc

/-- InvShiftRows undoes ShiftRows: `r` columns to the left of `c`, and from there `r` to the right, stands `c` (R55). -/
theorem invShiftRows_leftInverse_shiftRows : LeftInverse invShiftRows shiftRows := by
  intro b
  refine block_ext_grid fun r hr c hc => ?_
  have hback : ((c + 4 - r) % 4 + r) % 4 = c := by omega
  rw [byteOf_invShiftRows _ hr hc, byteOf_shiftRows b hr (Nat.mod_lt _ (by omega)), hback]

/-- The byte at row `r`, column `c` is byte `r` of word `c` (R5, R6). -/
theorem byteOf_grid (b : Block) {r : Nat} (hr : r < 4) (c : Nat) :
    byteOf b (r + 4 * c) = wordByte (wordOf b c) r := by
  rw [Nat.add_comm]
  interval_cases r <;> rfl

/-- A block whose four columns are equal is a fixed point of ShiftRows (R54). -/
theorem shiftRows_of_equal_columns {b : Block} {w : Word} (h : ∀ c < 4, wordOf b c = w) : shiftRows b = b := by
  refine block_ext_grid fun r hr c hc => ?_
  have hto : (c + r) % 4 < 4 := Nat.mod_lt _ (by omega)
  rw [byteOf_shiftRows b hr hc, byteOf_grid b hr, byteOf_grid b hr, h _ hto, h c hc]

/-- Settles O8: the answer on the grid; row 0 is its case `r = 0`. -/
theorem shiftRowsRotatesRowsLeft : Obligations.ShiftRowsRotatesRowsLeft := by
  refine ⟨fun d s => ?answer, fun d s t ht => ?corners⟩
  case answer =>
    exact ⟨_, rfl, registersKept_driveShiftrows s 0 d, rfl, rfl, fun r hr c hc => byteOf_shiftRows d hr hc⟩
  case corners =>
    obtain rfl : s.driveShiftrows 0 d = t := Host.Outcome.next.inj ht
    refine ⟨fun c hc => ?rowZero, fun h01 h12 h23 => ?equalColumns⟩
    case rowZero =>
      calc byteOf (shiftRows d) (4 * c)
          _ = byteOf (shiftRows d) (0 + 4 * c) := by rw [Nat.zero_add]
          _ = byteOf d (0 + 4 * ((c + 0) % 4)) := byteOf_shiftRows d (by omega) hc
          _ = byteOf d (4 * c) := by rw [Nat.zero_add, Nat.add_zero, Nat.mod_eq_of_lt hc]
    case equalColumns =>
      refine shiftRows_of_equal_columns (w := wordOf d 3) fun c hc => ?_
      interval_cases c <;> simp [h01, h12, h23]

/-- Settles O9: the column `(c + r) mod 4`, moved right by `r`, comes from column `c`. -/
theorem invShiftRowsRotatesRowsRight : Obligations.InvShiftRowsRotatesRowsRight := by
  refine ⟨fun d s => ⟨_, rfl, registersKept_driveShiftrows s 1 d, rfl, rfl, fun r hr c hc => ?answer⟩,
    invShiftRows_leftInverse_shiftRows⟩
  case answer =>
    have hfrom : ((c + r) % 4 + 4 - r) % 4 = c := by omega
    have hto := byteOf_invShiftRows d hr (Nat.mod_lt (c + r) (by omega : 4 > 0))
    rwa [hfrom] at hto

/-! ## MixColumns: one function on every word -/

/-- Word `j` of a block mapped word by word (R56). -/
theorem wordOf_mapWords (f : Word → Word) (b : Block) {j : Nat} (hj : j < 4) :
    wordOf (mapWords f b) j = f (wordOf b j) := by
  unfold mapWords
  interval_cases j <;> simp

/-- What undoes a function on words undoes it on every word of a block. -/
theorem mapWords_leftInverse {f g : Word → Word} (h : LeftInverse g f) : LeftInverse (mapWords g) (mapWords f) := by
  intro b
  simp [mapWords, h _]

/-- A function on words that fixes the four words of a block fixes the block. -/
theorem mapWords_fixed {f : Word → Word} {b : Block} (h : ∀ j < 4, f (wordOf b j) = wordOf b j) :
    mapWords f b = b := by
  rw [mapWords, h 0 (by omega), h 1 (by omega), h 2 (by omega), h 3 (by omega), blockOfWords_wordOf]

/-! ## MixWord and InvMixWord -/

/-- One byte of MixWord: of the byte `x`, its cyclically next byte `y` and the sum `t` of the word (R57). -/
def mixByte (t x y : Byte) : Byte := x ^^^ t ^^^ xtime (x ^^^ y)

/-- The sum of the bytes of a word, the `t` of R57. -/
def wordSum (w : Word) : Byte := w.b0 ^^^ w.b1 ^^^ w.b2 ^^^ w.b3

/-- MixWord is `mixByte` at each byte of the word. -/
theorem mixWord_eq_mixByte (w : Word) : mixWord w =
    ⟨mixByte (wordSum w) w.b0 w.b1, mixByte (wordSum w) w.b1 w.b2,
     mixByte (wordSum w) w.b2 w.b3, mixByte (wordSum w) w.b3 w.b0⟩ := rfl

/-- A summand that two sums share falls out of their sum. -/
theorem xor_xor_xor_cancel_right (x y z : Byte) : (x ^^^ z) ^^^ (y ^^^ z) = x ^^^ y := by
  rw [BitVec.xor_comm y z, ← BitVec.xor_assoc, xor_cancel_right]

/-- In a byte of MixWord, `t` cancels the byte `x` itself and leaves the row of the matrix; `r` is the sum of the two
bytes that are not doubled (R57). -/
theorem mixByte_eq_row {t x y : Byte} (r : Byte) (ht : t = x ^^^ (y ^^^ r)) :
    mixByte t x y = mul2 x ^^^ mul3 y ^^^ r := by
  rw [mixByte, ht, xor_cancel_left, xtime_xor, mul2, mul3]
  ac_rfl

/-- MixWord is the product with the matrix (R57). -/
theorem mixWord_eq_matrix (a b c d : Byte) : mixWord ⟨a, b, c, d⟩ =
    ⟨mul2 a ^^^ mul3 b ^^^ c ^^^ d, a ^^^ mul2 b ^^^ mul3 c ^^^ d,
     a ^^^ b ^^^ mul2 c ^^^ mul3 d, mul3 a ^^^ b ^^^ c ^^^ mul2 d⟩ := by
  have ha := mixByte_eq_row (t := a ^^^ b ^^^ c ^^^ d) (x := a) (y := b) (c ^^^ d) (by ac_rfl)
  have hb := mixByte_eq_row (t := a ^^^ b ^^^ c ^^^ d) (x := b) (y := c) (d ^^^ a) (by ac_rfl)
  have hc := mixByte_eq_row (t := a ^^^ b ^^^ c ^^^ d) (x := c) (y := d) (a ^^^ b) (by ac_rfl)
  have hd := mixByte_eq_row (t := a ^^^ b ^^^ c ^^^ d) (x := d) (y := a) (b ^^^ c) (by ac_rfl)
  rw [mixWord_eq_mixByte, wordSum, ha, hb, hc, hd, Word.mk.injEq]
  exact ⟨by ac_rfl, by ac_rfl, by ac_rfl, by ac_rfl⟩

/-- The sum of a byte of MixWord and the next one: `t` falls out, and so does the byte `y` that both double. -/
theorem mixByte_xor_mixByte (t x y z : Byte) :
    mixByte t x y ^^^ mixByte t y z = (x ^^^ y) ^^^ xtime (x ^^^ z) := by
  have hmid : (x ^^^ y) ^^^ (y ^^^ z) = x ^^^ z := by rw [BitVec.xor_assoc, xor_cancel_left]
  calc mixByte t x y ^^^ mixByte t y z
    _ = (x ^^^ xtime (x ^^^ y) ^^^ t) ^^^ (y ^^^ xtime (y ^^^ z) ^^^ t) := by rw [mixByte, mixByte]; ac_rfl
    _ = (x ^^^ xtime (x ^^^ y)) ^^^ (y ^^^ xtime (y ^^^ z)) := xor_xor_xor_cancel_right _ _ t
    _ = (x ^^^ y) ^^^ (xtime (x ^^^ y) ^^^ xtime (y ^^^ z)) := by ac_rfl
    _ = (x ^^^ y) ^^^ xtime (x ^^^ z) := by rw [← xtime_xor, hmid]

/-- MixWord on one byte, twice: `t` falls out, and so does the double of the first mixing. -/
theorem mixByte_mixByte (t x y z : Byte) :
    mixByte t (mixByte t x y) (mixByte t y z) = x ^^^ xtime (xtime (x ^^^ z)) := by
  calc mixByte t (mixByte t x y) (mixByte t y z)
    _ = mixByte t x y ^^^ t ^^^ (xtime (x ^^^ y) ^^^ xtime (xtime (x ^^^ z))) := by
      rw [mixByte, mixByte_xor_mixByte, xtime_xor]
    _ = x ^^^ (t ^^^ (t ^^^ (xtime (x ^^^ y) ^^^ (xtime (x ^^^ y) ^^^ xtime (xtime (x ^^^ z)))))) := by
      rw [mixByte]; ac_rfl
    _ = x ^^^ xtime (xtime (x ^^^ z)) := by rw [xor_cancel_left, xor_cancel_left]

/-- MixWord keeps the sum of a word: the bytes summed in pairs add `xtime (a ^ c)` twice. -/
theorem wordSum_mixWord (w : Word) : wordSum (mixWord w) = wordSum w := by
  rw [wordSum, mixWord_eq_mixByte, BitVec.xor_assoc (_ ^^^ _), mixByte_xor_mixByte, mixByte_xor_mixByte,
    BitVec.xor_comm w.b2 w.b0, xor_xor_xor_cancel_right, ← BitVec.xor_assoc, wordSum]

/-- The correction terms `u` and `v` of R58 added to a word. -/
def correctWord (w : Word) : Word :=
  ⟨w.b0 ^^^ xtime (xtime (w.b0 ^^^ w.b2)), w.b1 ^^^ xtime (xtime (w.b1 ^^^ w.b3)),
   w.b2 ^^^ xtime (xtime (w.b0 ^^^ w.b2)), w.b3 ^^^ xtime (xtime (w.b1 ^^^ w.b3))⟩

/-- InvMixWord corrects, then mixes (R58). -/
theorem invMixWord_eq (w : Word) : invMixWord w = mixWord (correctWord w) := rfl

/-- Mixing twice is the correction. -/
theorem mixWord_mixWord (w : Word) : mixWord (mixWord w) = correctWord w := by
  rw [mixWord_eq_mixByte (mixWord w), wordSum_mixWord, mixWord_eq_mixByte w]
  simp only [mixByte_mixByte, correctWord, BitVec.xor_comm w.b2 w.b0, BitVec.xor_comm w.b3 w.b1]

/-- The correction undoes itself: it changes neither `a ^ c` nor `b ^ d`. -/
theorem correctWord_involutive : Involutive correctWord := fun w => by
  simp only [correctWord, xor_xor_xor_cancel_right, xor_cancel_right]

/-- InvMixWord undoes MixWord: together they mix four times. -/
theorem invMixWord_leftInverse_mixWord : LeftInverse invMixWord mixWord := fun w => by
  calc invMixWord (mixWord w)
    _ = mixWord (correctWord (mixWord w)) := invMixWord_eq _
    _ = mixWord (mixWord (mixWord (mixWord w))) := by rw [mixWord_mixWord (mixWord w)]
    _ = correctWord (correctWord w) := by rw [mixWord_mixWord, mixWord_mixWord]
    _ = w := correctWord_involutive w

/-- MixWord undoes InvMixWord: the last mixing completes a second correction. -/
theorem mixWord_leftInverse_invMixWord : LeftInverse mixWord invMixWord := fun w => by
  rw [invMixWord_eq, mixWord_mixWord, correctWord_involutive]

/-- InvMixColumns undoes MixColumns (R58). -/
theorem invMixColumns_leftInverse_mixColumns : LeftInverse invMixColumns mixColumns :=
  mapWords_leftInverse invMixWord_leftInverse_mixWord

/-- MixColumns undoes InvMixColumns (R58). -/
theorem mixColumns_leftInverse_invMixColumns : LeftInverse mixColumns invMixColumns :=
  mapWords_leftInverse mixWord_leftInverse_invMixWord

/-- Zero doubled is zero (R47). -/
@[simp] theorem xtime_zero : xtime 0#8 = 0#8 := rfl

/-- A word of four equal bytes is a fixed point of MixWord: its `t` is 0, and so are the sums that are doubled (R57). -/
theorem mixWord_equal_bytes (a : Byte) : mixWord ⟨a, a, a, a⟩ = ⟨a, a, a, a⟩ := by
  simp [mixWord]

/-- A word of four equal bytes needs no correction, and is a fixed point of InvMixWord (R58). -/
theorem invMixWord_equal_bytes (a : Byte) : invMixWord ⟨a, a, a, a⟩ = ⟨a, a, a, a⟩ := by
  have hcorrect : correctWord ⟨a, a, a, a⟩ = ⟨a, a, a, a⟩ := by simp [correctWord]
  rw [invMixWord_eq, hcorrect, mixWord_equal_bytes]

/-- MixColumns maps the zero block to itself: its words are zero (R57). -/
theorem mixColumns_zero : mixColumns 0 = 0 :=
  mapWords_fixed fun j _ => by
    have hword : wordOf 0 j = ⟨0, 0, 0, 0⟩ := by simp [wordOf, byteOf]
    rw [hword, mixWord_equal_bytes]

/-- Settles O10: the answer word by word, the `t` form as it is defined, the matrix, and the fixed points. -/
theorem mixColumnsMixesEveryWord : Obligations.MixColumnsMixesEveryWord := by
  refine ⟨fun x s => ?answer, fun a b c d => rfl, mixWord_eq_matrix, mixWord_equal_bytes, mixColumns_zero⟩
  case answer =>
    exact ⟨_, rfl, registersKept_driveMixcolumns s 0 x, rfl, rfl, fun j hj => wordOf_mapWords mixWord x hj⟩

/-- Settles O11: the answer word by word, the `u`, `v` form as it is defined, and the two inverse laws. -/
theorem invMixColumnsCorrectsThenMixes : Obligations.InvMixColumnsCorrectsThenMixes := by
  refine ⟨fun x s => ?answer, fun a b c d => rfl,
    fun b => ⟨invMixColumns_leftInverse_mixColumns b, mixColumns_leftInverse_invMixColumns b⟩, invMixWord_equal_bytes⟩
  case answer =>
    exact ⟨_, rfl, registersKept_driveMixcolumns s 1 x, rfl, rfl, fun j hj => wordOf_mapWords invMixWord x hj⟩

/-! ## AddRoundKey, and the laws of the four stages -/

/-- AddRoundKey with the same key twice is the identity (R59). -/
theorem addRoundKey_addRoundKey (b k : Block) : addRoundKey (addRoundKey b k) k = b := xor_cancel_right b k

/-- Settles O12: the sum of blocks is the sum of their bytes, and the rest are laws of XOR. -/
theorem addRoundKeyXorsTheRoundKey : Obligations.AddRoundKeyXorsTheRoundKey := by
  refine ⟨fun d k s => ?answer, fun b k => ⟨addRoundKey_addRoundKey b k, BitVec.xor_zero, BitVec.xor_self⟩⟩
  case answer =>
    exact ⟨_, rfl, registersKept_driveAddroundkey s d k, rfl, rfl, fun n _ => byteOf_xor d k n⟩

/-- Settles O13: the inverse laws of the four stages (R60). -/
theorem stagesAreInvertible : Obligations.StagesAreInvertible := fun b k =>
  ⟨invSubBytes_leftInverse_subBytes b, invShiftRows_leftInverse_shiftRows b, invMixColumns_leftInverse_mixColumns b,
    addRoundKey_addRoundKey b k⟩

end Sys2Proof.Machine
end

section
/-! The key-step function word by word (spec/42_key_expand.md R62 to R64). -/

namespace Sys2Proof.Machine

/-- The first word of the next round key takes the round constant, on its first byte only (R64). -/
theorem wordOf_nextRoundKey_zero (p : Block) (c : Byte) :
    let t := subWord (rotWord (wordOf p 3))
    wordOf (nextRoundKey p c) 0 = Word.xor ⟨t.b0 ^^^ c, t.b1, t.b2, t.b3⟩ (wordOf p 0) :=
  wordOf_blockOfWords_0 _ _ _ _

/-- Every later word of the next round key is the new word before it plus the old word of its place (R64). -/
theorem wordOf_nextRoundKey_succ (p : Block) (c : Byte) {j : Nat} (hj : j < 3) :
    wordOf (nextRoundKey p c) (j + 1) = (wordOf (nextRoundKey p c) j).xor (wordOf p (j + 1)) := by
  have hcases : j = 0 ∨ j = 1 ∨ j = 2 := by omega
  rcases hcases with rfl | rfl | rfl
  · rw [nextRoundKey, wordOf_blockOfWords_0, wordOf_blockOfWords_1]
  · rw [nextRoundKey, wordOf_blockOfWords_1, wordOf_blockOfWords_2]
  · rw [nextRoundKey, wordOf_blockOfWords_2, wordOf_blockOfWords_3]

/-- A key step with an index 1..10 has a round constant, and is the next round key with that constant (R46, R64). -/
theorem keyStep_eq_nextRoundKey {i : BitVec 4} (h : keyIndexOk i = true) (p : Block) :
    ∃ c, rcon i = some c ∧ keyStep p i = some (nextRoundKey p c) := by
  obtain ⟨c, hc⟩ := Option.isSome_iff_exists.1 ((rcon_isSome_iff i).2 h)
  exact ⟨c, hc, by rw [keyStep, hc, Option.map_some]⟩

/-- Settles O15: RotWord and SubWord as they are defined, the words of the next round key in series, and the zero key by
evaluation. -/
theorem keyStepFunctionBuildsTheWords : Obligations.KeyStepFunctionBuildsTheWords := by
  refine ⟨fun w => rfl, fun w => rfl, fun a => rfl, fun p i h1 h10 => ?words, ?zeroKey⟩
  case words =>
    obtain ⟨c, hc, hn⟩ := keyStep_eq_nextRoundKey ((keyIndexOk_iff i).2 ⟨h1, h10⟩) p
    exact ⟨c, nextRoundKey p c, hc, hn, wordOf_nextRoundKey_zero p c, wordOf_nextRoundKey_succ p c (by decide),
      wordOf_nextRoundKey_succ p c (by decide), wordOf_nextRoundKey_succ p c (by decide)⟩
  case zeroKey => decide

end Sys2Proof.Machine
end

section
/-! Decrypt undoes Encrypt (spec/43_cipher.md R67 to R69). Every decrypt round undoes the encrypt round with the same round
key, and Decrypt takes the round keys in the reverse order. -/

namespace Sys2Proof.Machine

/-- The inverse stages of a decrypt round undo the substitution and the shift of an encrypt round (R60). -/
theorem invSubBytes_invShiftRows_shiftRows_subBytes (s : Block) :
    invSubBytes (invShiftRows (shiftRows (subBytes s))) = s := by
  rw [invShiftRows_leftInverse_shiftRows, invSubBytes_leftInverse_subBytes]

/-- The first decrypt round undoes the final encrypt round; neither mixes columns (R67, R68). -/
theorem decryptInit_encryptFinal (s k : Block) : decryptInit (encryptFinal s k) k = s := by
  rw [decryptInit, encryptFinal, addRoundKey_addRoundKey, invSubBytes_invShiftRows_shiftRows_subBytes]

/-- A middle decrypt round undoes the middle encrypt round with the same round key (R67, R68). -/
theorem decryptRound_encryptRound (s k : Block) : decryptRound (encryptRound s k) k = s := by
  rw [decryptRound, encryptRound, addRoundKey_addRoundKey, invMixColumns_leftInverse_mixColumns,
    invSubBytes_invShiftRows_shiftRows_subBytes]

/-- Middle decrypt rounds with the round keys in reverse undo the middle encrypt rounds: the first key of the encryption is
the last one of the decryption. -/
theorem decryptRounds_reverse_encryptRounds (ks : List Block) (s : Block) :
    ks.reverse.foldl decryptRound (ks.foldl encryptRound s) = s := by
  induction ks generalizing s with
  | nil => rfl
  | cons k ks ih =>
    rw [List.foldl_cons, List.reverse_cons, List.foldl_append, ih]
    exact decryptRound_encryptRound s k

/-- Round keys 1 to 9 of a key, in the order in which Encrypt takes them (R67). -/
def middleKeys (k : Block) : List Block :=
  let rk := expandKey k
  [rk[1], rk[2], rk[3], rk[4], rk[5], rk[6], rk[7], rk[8], rk[9]]

/-- Encrypt runs the middle rounds over the middle keys (R67). -/
theorem encrypt_eq_middleKeys (p k : Block) :
    encrypt p k =
      encryptFinal ((middleKeys k).foldl encryptRound (addRoundKey p (expandKey k)[0])) (expandKey k)[10] :=
  rfl

/-- Decrypt runs the middle rounds over the middle keys in reverse (R68). -/
theorem decrypt_eq_middleKeys_reverse (c k : Block) :
    decrypt c k =
      addRoundKey ((middleKeys k).reverse.foldl decryptRound (decryptInit c (expandKey k)[10])) (expandKey k)[0] :=
  rfl

/-- Settles O52: the first decrypt round undoes the final encrypt round, the middle rounds undo each other from the last
key to the first, and adding round key 0 again gives the block. -/
theorem decryptUndoesEncrypt : Obligations.DecryptUndoesEncrypt := by
  intro p k
  rw [encrypt_eq_middleKeys, decrypt_eq_middleKeys_reverse, decryptInit_encryptFinal,
    decryptRounds_reverse_encryptRounds, addRoundKey_addRoundKey]

end Sys2Proof.Machine
end

section
/-! The host commands and the dispatch of a step (spec/44_core_control.md R77-R81): what the sampled command is, what a
command does in each control state, and that no operation reads the input ports. -/

namespace Sys2Proof.Machine

/-! ## The sampled command -/

/-- Without `rst` and `start` the command is NOP, whatever stands at the other ports (R78). -/
theorem fetch_eq_nop {s : State} (hr : s.inputs.rst = 0) (hs : s.inputs.start = 0) : s.fetch = .nop := by
  simp [fetch_eq, hr, hs]

/-- `start` with `mode = 0` presents ENC (R79). -/
theorem fetch_eq_enc {s : State} (hr : s.inputs.rst = 0) (hs : s.inputs.start = 1) (hm : s.inputs.mode = 0) :
    s.fetch = .enc s.inputs.keyIn s.inputs.din := by
  simp [fetch_eq, hr, hs, hm]

/-- `start` with `mode = 1` presents DEC (R80). -/
theorem fetch_eq_dec {s : State} (hr : s.inputs.rst = 0) (hs : s.inputs.start = 1) (hm : s.inputs.mode = 1) :
    s.fetch = .dec s.inputs.keyIn s.inputs.din := by
  simp [fetch_eq, hr, hs, hm]

/-! ## An accept -/

/-- What an accept leaves in the registers and at the flags, in either mode (R79, R80). -/
theorem accept_writes (s : State) (m : Bit) (k d : Block) :
    (s.accept m k d).rk = s.rk.set 0 k ∧ (s.accept m k d).sR = d ∧ (s.accept m k d).modeR = m ∧
    (s.accept m k d).cnt = 1 ∧ (s.accept m k d).phase = .kexp ∧ (s.accept m k d).doneR = 0 ∧
    (s.accept m k d).busy = 1 ∧ (s.accept m k d).done = 0 := by
  simp [State.busy, State.done]

/-! ## A busy core -/

/-- What a command would do in an idle core is not looked at in a busy one (R81). -/
theorem commandStep_busy {s : State} (u v : State) (h : s.phase = .kexp ∨ s.phase = .rnd) :
    s.commandStep u = s.commandStep v := by
  rcases h with hp | hp
  · rw [commandStep_kexp u hp, commandStep_kexp v hp]
  · rw [commandStep_rnd u hp, commandStep_rnd v hp]

/-- The round phase runs the operation that `{mode_r, cnt}` selects (R39, R83). -/
theorem roundPhaseStep_eq_exec {s : State} {op : Instr} (h : decodeRs (s.modeR ++ s.cnt) = some op) :
    s.roundPhaseStep = exec op s := by
  unfold State.roundPhaseStep
  rcases decodeRs_cases s.modeR s.cnt with ⟨-, -, hd⟩ | ⟨-, -, hd⟩ | ⟨-, -, hd⟩ | ⟨-, -, hd⟩ | ⟨-, -, hd⟩ |
    ⟨-, -, hd⟩ | ⟨-, hd⟩ <;> cases hd.symm.trans h <;> rw [hd] <;> rfl

/-- An RS vector selects an operation exactly when its count is 0..10 (R39). -/
theorem decodeRs_isSome_iff (m : Bit) (k : BitVec 4) : (decodeRs (m ++ k)).isSome = true ↔ k ≤ 10 := by
  revert m k; decide

/-! ## The reserved control states -/

/-- A key step with a reserved index faults (R38, R90). -/
theorem execKeyStep_fault {i : BitVec 4} (h : keyIndexOk i = false) (s : State) :
    execKeyStep i s = .fault (.unreachableControlState .kexp i) := by
  rcases execKeyStep_eq i s with ⟨prev, n, -, hn, -⟩ | ⟨-, hf⟩
  · have hk : keyIndexOk i = true := (keyStep_isSome_iff prev i).1 (by rw [hn]; rfl)
    rw [h] at hk; cases hk
  · exact hf

/-- Every command faults in IDLE with a count other than 0 (R77). -/
theorem commandStep_idle_fault {s : State} (u : State) (hp : s.phase = .idle) (hc : s.cnt ≠ 0) :
    s.commandStep u = .fault (.unreachableControlState s.phase s.cnt) := by
  simp only [State.commandStep, hp, if_neg hc, unreachableControl]

/-- Every command faults in KEXP with a reserved KX index (R77). -/
theorem commandStep_kexp_fault {s : State} (u : State) (hp : s.phase = .kexp) (hc : s.cnt = 0 ∨ 11 ≤ s.cnt) :
    s.commandStep u = .fault (.unreachableControlState s.phase s.cnt) := by
  have hk : keyIndexOk s.cnt = false := by
    generalize s.cnt = c at hc; revert c; decide
  rw [commandStep_kexp u hp, execKeyStep_fault hk, hp]

/-- Every command faults in RND with a reserved RS count (R77). -/
theorem commandStep_rnd_fault {s : State} (u : State) (hp : s.phase = .rnd) (hc : 11 ≤ s.cnt) :
    s.commandStep u = .fault (.unreachableControlState s.phase s.cnt) :=
  (commandStep_rnd u hp).trans (roundPhaseStep_fault s hc)

/-- Every command faults in the reserved phase (R77). -/
theorem commandStep_reserved_fault {s : State} (u : State) (hp : s.phase = .reserved) :
    s.commandStep u = .fault (.unreachableControlState s.phase s.cnt) := by
  simp only [State.commandStep, hp, unreachableControl]

/-! ## No operation reads the input ports

An operation commutes with a change of what stands at the input ports: its operands are its own, and the registers hold
the rest. -/

/-- The state with other values at its input ports. -/
def State.withInputs (i : HostInputs) (s : State) : State := { s with inputs := i }

/-- A round step commutes with other inputs when its writes do. -/
theorem withRoundKey_withInputs (i : HostInputs) (s : State) (k j : BitVec 4) {f g : Block → State}
    (h : ∀ key, g key = (f key).withInputs i) :
    withRoundKey (s.withInputs i) k j g = mapNext (State.withInputs i) (withRoundKey s k j f) := by
  have hr : (s.withInputs i).readRk j = s.readRk j := rfl
  unfold withRoundKey
  rw [hr]
  cases s.readRk j with
  | some key => exact congrArg Host.Outcome.next (h key)
  | none => rfl

/-- The sequencer's advance after a key step commutes with other inputs. -/
theorem advanceKey_withInputs (i : HostInputs) (s : State) (j : BitVec 4) :
    (s.withInputs i).advanceKey j = (s.advanceKey j).withInputs i := by
  unfold State.advanceKey
  split <;> rfl

/-- The key step does not read the input ports. -/
theorem execKeyStep_withInputs (i : HostInputs) (j : BitVec 4) (s : State) :
    execKeyStep j (s.withInputs i) = mapNext (State.withInputs i) (execKeyStep j s) := by
  have hr : (s.withInputs i).readRk (j - 1) = s.readRk (j - 1) := rfl
  unfold execKeyStep
  rw [hr]
  cases s.readRk (j - 1) with
  | none => rfl
  | some prev =>
    dsimp only
    cases keyStep prev j with
    | none => rfl
    | some n => exact congrArg Host.Outcome.next (advanceKey_withInputs i ((s.driveKeyExpand prev j n).writeRk j n) j)

/-- A middle encrypt round does not read the input ports. -/
theorem execEncRound_withInputs (i : HostInputs) (k : BitVec 4) (s : State) :
    execEncRound k (s.withInputs i) = mapNext (State.withInputs i) (execEncRound k s) := by
  unfold execEncRound
  split
  · exact withRoundKey_withInputs i s k k fun _ => rfl
  · rfl

/-- A middle decrypt round does not read the input ports. -/
theorem execDecRound_withInputs (i : HostInputs) (k : BitVec 4) (s : State) :
    execDecRound k (s.withInputs i) = mapNext (State.withInputs i) (execDecRound k s) := by
  unfold execDecRound
  split
  · exact withRoundKey_withInputs i s k (10 - k) fun _ => rfl
  · rfl

/-- The round phase does not read the input ports, whichever operation it selects. -/
theorem roundPhaseStep_withInputs (i : HostInputs) (s : State) :
    (s.withInputs i).roundPhaseStep = mapNext (State.withInputs i) s.roundPhaseStep := by
  have hv : (s.withInputs i).modeR ++ (s.withInputs i).cnt = s.modeR ++ s.cnt := rfl
  unfold State.roundPhaseStep
  rw [hv]
  rcases decodeRs_cases s.modeR s.cnt with ⟨-, -, hd⟩ | ⟨-, -, hd⟩ | ⟨-, -, hd⟩ | ⟨-, -, hd⟩ | ⟨-, -, hd⟩ |
    ⟨-, -, hd⟩ | ⟨-, hd⟩ <;> rw [hd]
  · exact withRoundKey_withInputs i s 0 0 fun _ => rfl
  · exact execEncRound_withInputs i s.cnt s
  · exact withRoundKey_withInputs i s 10 10 fun _ => rfl
  · exact withRoundKey_withInputs i s 0 10 fun _ => rfl
  · exact execDecRound_withInputs i s.cnt s
  · exact withRoundKey_withInputs i s 10 0 fun _ => rfl
  · rfl

/-- NOP does not read the input ports of a busy core. -/
theorem exec_nop_withInputs (i : HostInputs) {s : State} (h : s.phase = .kexp ∨ s.phase = .rnd) :
    exec .nop (s.withInputs i) = mapNext (State.withInputs i) (exec .nop s) := by
  change (s.withInputs i).commandStep _ = mapNext _ (s.commandStep s)
  rcases h with hp | hp
  · rw [commandStep_kexp (s := s.withInputs i) _ hp, commandStep_kexp s hp]
    exact execKeyStep_withInputs i s.cnt s
  · rw [commandStep_rnd (s := s.withInputs i) _ hp, commandStep_rnd s hp]
    exact roundPhaseStep_withInputs i s

/-! ## The statements -/

/-- Settles O30: in a busy core all commands are the same step, and that step commutes with other values at the input
ports. -/
theorem aBusyCoreIgnoresCommands : Obligations.ABusyCoreIgnoresCommands :=
  ⟨fun _ _ _ h => ⟨commandStep_busy _ _ h, commandStep_busy _ _ h⟩, fun _ i h => exec_nop_withInputs i h⟩

/-- Settles O31, line by line of R77: the sampled command in reset and in an idle core, and `commandStep` in the control
states that do not look at it. -/
theorem stepDispatchFollowsThePriorityOfItsLines : Obligations.StepDispatchFollowsThePriorityOfItsLines := by
  intro s
  refine ⟨fun hr => ?reset, fun hr hp hc => ?idleFault, fun hr _ _ hs => ?nop, fun hr _ _ hs hm => ?enc,
    fun hr _ _ hs hm => ?dec, fun hr hp _ _ => ?key, fun hr hp hc => ?round, fun hr h => ?fault⟩
  case reset => rw [exec_fetch_rst hr]; rfl
  case idleFault => rw [exec_fetch_command hr, commandStep_idle_fault _ hp hc]
  case nop => rw [fetch_eq_nop hr hs]
  case enc => rw [fetch_eq_enc hr hs hm]
  case dec => rw [fetch_eq_dec hr hs hm]
  case key => rw [exec_fetch_command hr, commandStep_kexp _ hp]; rfl
  case round =>
    obtain ⟨op, hd⟩ := Option.isSome_iff_exists.1 ((decodeRs_isSome_iff s.modeR s.cnt).2 hc)
    refine ⟨op, hd, ?_⟩
    rw [exec_fetch_command hr, commandStep_rnd _ hp, roundPhaseStep_eq_exec hd]
  case fault =>
    rw [exec_fetch_command hr]
    rcases h with hp | ⟨hp, hc⟩ | ⟨hp, hc⟩
    · exact commandStep_reserved_fault _ hp
    · exact commandStep_kexp_fault _ hp hc
    · exact commandStep_rnd_fault _ hp hc

/-- Settles O27: NOP is `commandStep` with the state itself as its effect in an idle core. -/
theorem nopLeavesAnIdleCoreAlone : Obligations.NopLeavesAnIdleCoreAlone :=
  ⟨fun s hp hc => commandStep_idle s hp hc, fun s hp => commandStep_kexp s hp,
    fun s _ hp hd => (commandStep_rnd s hp).trans (roundPhaseStep_eq_exec hd), fun _ => fetch_eq_nop⟩

/-- Settles O28: an idle core accepts ENC with mode 0. -/
theorem encIsAcceptedInIdle : Obligations.EncIsAcceptedInIdle :=
  ⟨fun k d s hp hc => ⟨_, commandStep_idle (s.accept 0 k d) hp hc, accept_writes s 0 k d⟩, fun _ => fetch_eq_enc⟩

/-- Settles O29: an idle core accepts DEC with mode 1. -/
theorem decIsAcceptedInIdle : Obligations.DecIsAcceptedInIdle :=
  ⟨fun k d s hp hc => ⟨_, commandStep_idle (s.accept 1 k d) hp hc, accept_writes s 1 k d⟩, fun _ => fetch_eq_dec⟩

end Sys2Proof.Machine
end

section
/-! Reset (spec/70_reset_and_hazards.md R97): the writes of RST and its command, in any control state. -/

namespace Sys2Proof.Machine

/-- RST writes the control in every state, the reserved ones too: no line of its arm looks at the state (R77, R97). -/
theorem exec_rst (s : State) : exec .rst s = .next s.resetControl := rfl

/-- With `rst = 1` the command is RST, whatever stands at the other input ports (R36, R97). -/
theorem fetch_eq_rst {s : State} (h : s.inputs.rst = 1) : s.fetch = .rst := by
  rw [fetch_eq, if_pos h]

/-- What a reset leaves in the registers and at the flags (R97). -/
theorem resetControl_writes (s : State) :
    s.resetControl.phase = .idle ∧ s.resetControl.cnt = 0 ∧ s.resetControl.doneR = 0 ∧
    s.resetControl.modeR = s.modeR ∧ s.resetControl.sR = s.sR ∧ s.resetControl.rk = s.rk ∧
    s.resetControl.busy = 0 ∧ s.resetControl.done = 0 := by
  simp [State.busy, State.done]

/-- A second reset has nothing left to write. -/
theorem resetControl_idempotent (s : State) : s.resetControl.resetControl = s.resetControl := rfl

/-- Settles O26: RST answers `resetControl`, which writes the control registers only and is idempotent, and `rst = 1`
decides the command alone. -/
theorem rstResetsTheControlOnly : Obligations.RstResetsTheControlOnly := by
  refine ⟨fun s => ⟨s.resetControl, exec_rst s, resetControl_writes s⟩, fun s t h => ?again, fun _ => fetch_eq_rst⟩
  case again =>
    cases (exec_rst s).symm.trans h
    rw [exec_rst, resetControl_idempotent]

end Sys2Proof.Machine
end

section
/-! The byte decoder (spec/30_encoding.md; log entry 7): at each selection point it reads a control byte, if the format has
bits, and the operand blocks. What it reads from such bytes is said once per point; an encoding is such bytes. -/

namespace Sys2Proof

open Sys2Proof.Machine (blockBytes takeBlock takeBlock_blockBytes)

/-! ## Reading what was written -/

/-- One block of operand bytes is read back, whatever follows. -/
theorem decodeOneBlock_blockBytes (mk : Block → Instr) (d : Block) (rest : List Byte) :
    decodeOneBlock mk (blockBytes d ++ rest) = .ok (mk d) rest := by
  rw [decodeOneBlock, takeBlock_blockBytes]

/-- Two blocks of operand bytes are read back, whatever follows. -/
theorem decodeTwoBlocks_twoBlocks (mk : Block → Block → Instr) (a b : Block) (rest : List Byte) :
    decodeTwoBlocks mk (twoBlocks a b ++ rest) = .ok (mk a b) rest := by
  rw [decodeTwoBlocks, twoBlocks, List.append_assoc, takeBlock_blockBytes]
  exact decodeOneBlock_blockBytes (mk a) b rest

/-- A control byte that holds the bits `b` of its format, and zeros above them, is read as `b`. -/
theorem decodeControl_setWidth {w : Nat} (hw : w ≤ 8) (f : BitVec w → List Byte → Decoded) (b : BitVec w)
    (rest : List Byte) : decodeControl w f (b.setWidth 8 :: rest) = f b rest := by
  have hfits : (b.setWidth 8).toNat < 2 ^ w := by
    rw [BitVec.toNat_setWidth_of_le hw]
    exact b.isLt
  rw [decodeControl, if_pos hfits, BitVec.setWidth_setWidth_of_le _ hw, BitVec.setWidth_eq]

/-! ## The selection points -/

variable (rest : List Byte)

theorem decode_cmd (cmd : BitVec 3) (keyIn din : Block) :
    decode .cmd (cmd.setWidth 8 :: twoBlocks keyIn din ++ rest) = .ok (decodeCmd cmd keyIn din) rest := by
  rw [decode, List.cons_append, decodeControl_setWidth (by decide)]
  exact decodeTwoBlocks_twoBlocks (decodeCmd cmd) keyIn din rest

theorem decode_subyte (inv : Bit) (d : Block) :
    decode .subyte (inv.setWidth 8 :: blockBytes d ++ rest) = .ok (decodeSubyte inv d) rest := by
  rw [decode, List.cons_append, decodeControl_setWidth (by decide)]
  exact decodeOneBlock_blockBytes (decodeSubyte inv) d rest

theorem decode_shiftrows (inv : Bit) (d : Block) :
    decode .shiftrows (inv.setWidth 8 :: blockBytes d ++ rest) = .ok (decodeShiftrows inv d) rest := by
  rw [decode, List.cons_append, decodeControl_setWidth (by decide)]
  exact decodeOneBlock_blockBytes (decodeShiftrows inv) d rest

theorem decode_mixcolumns (inv : Bit) (d : Block) :
    decode .mixcolumns (inv.setWidth 8 :: blockBytes d ++ rest) = .ok (decodeMixcolumns inv d) rest := by
  rw [decode, List.cons_append, decodeControl_setWidth (by decide)]
  exact decodeOneBlock_blockBytes (decodeMixcolumns inv) d rest

theorem decode_addroundkey (d k : Block) :
    decode .addroundkey (twoBlocks d k ++ rest) = .ok (.addRoundKey d k) rest :=
  decodeTwoBlocks_twoBlocks .addRoundKey d k rest

theorem decode_kx (i : BitVec 4) :
    decode .kx (i.setWidth 8 :: rest) = decodedOr (decodeKx i) .reservedKx rest := by
  rw [decode, decodeControl_setWidth (by decide)]

theorem decode_rs (rs : BitVec 5) :
    decode .rs (rs.setWidth 8 :: rest) = decodedOr (decodeRs rs) .reservedRs rest := by
  rw [decode, decodeControl_setWidth (by decide)]

/-! ## The vectors of KX and RS -/

/-- A KX index in its range selects KEYSTEP (R38). -/
theorem decodeKx_of_ok {i : BitVec 4} (h : keyIndexOk i = true) : decodeKx i = some (.keyStep i) := if_pos h

/-- A middle RS count selects ENC_ROUND in an encryption (R39). -/
theorem decodeRs_encRound : ∀ k : BitVec 4, middleRoundOk k = true → decodeRs (0#1 ++ k) = some (.encRound k) := by
  decide

/-- A middle RS count selects DEC_ROUND in a decryption (R39). -/
theorem decodeRs_decRound : ∀ k : BitVec 4, middleRoundOk k = true → decodeRs (1#1 ++ k) = some (.decRound k) := by
  decide

/-- The control byte of KEYSTEP holds its index. -/
theorem encode_keyStep (i : BitVec 4) : encode (.keyStep i) = [i.setWidth 8] := by
  revert i; decide

/-- The control byte of ENC_ROUND holds the RS vector `{0, k}`. -/
theorem encode_encRound (k : BitVec 4) : encode (.encRound k) = [(0#1 ++ k).setWidth 8] := by
  revert k; decide

/-- The control byte of DEC_ROUND holds the RS vector `{1, k}`. -/
theorem encode_decRound (k : BitVec 4) : encode (.decRound k) = [(1#1 ++ k).setWidth 8] := by
  revert k; decide

/-- Settles O35, constructor by constructor: the bytes of an operation are those that its point reads. -/
theorem decodeUndoesEncode : Obligations.DecodeUndoesEncode := by
  intro i rest hwf
  cases i with
  | rst => exact decode_cmd rest 0b100 0 0
  | nop => exact decode_cmd rest 0b000 0 0
  | enc keyIn din => exact decode_cmd rest 0b010 keyIn din
  | dec keyIn din => exact decode_cmd rest 0b011 keyIn din
  | subBytes d => exact decode_subyte rest 0 d
  | invSubBytes d => exact decode_subyte rest 1 d
  | shiftRows d => exact decode_shiftrows rest 0 d
  | invShiftRows d => exact decode_shiftrows rest 1 d
  | mixColumns d => exact decode_mixcolumns rest 0 d
  | invMixColumns d => exact decode_mixcolumns rest 1 d
  | addRoundKey d k => exact decode_addroundkey rest d k
  | keyStep i =>
    rw [encode_keyStep]
    exact (decode_kx rest i).trans (by rw [decodeKx_of_ok hwf, decodedOr])
  | encInit => exact decode_rs rest 0b00000
  | encRound k =>
    rw [encode_encRound]
    exact (decode_rs rest (0#1 ++ k)).trans (by rw [decodeRs_encRound k hwf, decodedOr])
  | encFinal => exact decode_rs rest 0b01010
  | decInit => exact decode_rs rest 0b10000
  | decRound k =>
    rw [encode_decRound]
    exact (decode_rs rest (1#1 ++ k)).trans (by rw [decodeRs_decRound k hwf, decodedOr])
  | decFinal => exact decode_rs rest 0b11010

/-- What the decoder reads from bytes with nothing after them. -/
theorem decode_of_append_nil {p : Point} {bs : List Byte} {o : Decoded} (h : decode p (bs ++ []) = o) :
    decode p bs = o := by
  rwa [List.append_nil] at h

/-- Settles O34: each vector is what its point reads, and the reserved ones have no operation. -/
theorem specWordsDecode : Obligations.SpecWordsDecode :=
  ⟨fun k d => decode_of_append_nil (decode_cmd [] 0b010 k d),
    fun k d => decode_of_append_nil (decode_cmd [] 0b110 k d),
    fun d => decode_of_append_nil (decode_subyte [] 0b0 d),
    fun d => decode_of_append_nil (decode_shiftrows [] 0b1 d),
    fun d => decode_of_append_nil (decode_mixcolumns [] 0b1 d),
    fun d k => decode_of_append_nil (decode_addroundkey [] d k),
    rfl, rfl, rfl, rfl, rfl, rfl, rfl, rfl, rfl⟩

/-! ## What the decoder can answer -/

variable {rest} {bs : List Byte} {i : Instr}

/-- Where one block is read, the operation is the format's for some block. -/
theorem decodeOneBlock_eq_ok {mk : Block → Instr} (h : decodeOneBlock mk bs = .ok i rest) : ∃ d, i = mk d := by
  unfold decodeOneBlock at h
  split at h
  · next d _ _ => exact ⟨d, by cases h; rfl⟩
  · cases h

/-- Where two blocks are read, the operation is the format's for some two blocks. -/
theorem decodeTwoBlocks_eq_ok {mk : Block → Block → Instr} (h : decodeTwoBlocks mk bs = .ok i rest) :
    ∃ a b, i = mk a b := by
  unfold decodeTwoBlocks at h
  split at h
  · next a _ _ => exact ⟨a, decodeOneBlock_eq_ok h⟩
  · cases h

/-- Where a control byte is read, the operation is what the format makes of some bits. -/
theorem decodeControl_eq_ok {w : Nat} {f : BitVec w → List Byte → Decoded} (h : decodeControl w f bs = .ok i rest) :
    ∃ b tail, f b tail = .ok i rest := by
  cases bs with
  | nil => cases h
  | cons c tail =>
    rw [decodeControl] at h
    split at h
    · exact ⟨_, tail, h⟩
    · cases h

/-- An operation without operand bytes is the one its vector selects. -/
theorem decodedOr_eq_ok {o : Option Instr} {e : DecodeError} (h : decodedOr o e bs = .ok i rest) : o = some i := by
  cases o with
  | some op => cases h; rfl
  | none => cases h

/-- At a unit with a select input, the operation is the unit's for some select and some block. -/
theorem decodeStage_eq_ok {stage : Bit → Block → Instr}
    (h : decodeControl 1 (fun inv => decodeOneBlock (stage inv)) bs = .ok i rest) : ∃ inv d, i = stage inv d := by
  obtain ⟨inv, _, h⟩ := decodeControl_eq_ok h
  exact ⟨inv, decodeOneBlock_eq_ok h⟩

/-- A CMD vector selects an operation of its point (R36). -/
theorem decodeCmd_point (cmd : BitVec 3) (keyIn din : Block) :
    (decodeCmd cmd keyIn din).wf = true ∧ (decodeCmd cmd keyIn din).point = .cmd := by
  unfold decodeCmd
  split_ifs <;> exact ⟨rfl, rfl⟩

/-- The select input of `subyte_stage` selects an operation of that unit (R37). -/
theorem decodeSubyte_point (inv : Bit) (d : Block) :
    (decodeSubyte inv d).wf = true ∧ (decodeSubyte inv d).point = .subyte := by
  unfold decodeSubyte
  split_ifs <;> exact ⟨rfl, rfl⟩

/-- The select input of `shiftrows_stage` selects an operation of that unit (R37). -/
theorem decodeShiftrows_point (inv : Bit) (d : Block) :
    (decodeShiftrows inv d).wf = true ∧ (decodeShiftrows inv d).point = .shiftrows := by
  unfold decodeShiftrows
  split_ifs <;> exact ⟨rfl, rfl⟩

/-- The select input of `mixcolumns_stage` selects an operation of that unit (R37). -/
theorem decodeMixcolumns_point (inv : Bit) (d : Block) :
    (decodeMixcolumns inv d).wf = true ∧ (decodeMixcolumns inv d).point = .mixcolumns := by
  unfold decodeMixcolumns
  split_ifs <;> exact ⟨rfl, rfl⟩

/-- What a KX vector selects is a well-formed operation of its point, encoded as that vector (R38). -/
theorem decodeKx_some : ∀ i : BitVec 4, ∀ op ∈ decodeKx i,
    op.wf = true ∧ op.point = .kx ∧ encode op = [0#4 ++ i] := by decide

/-- What an RS vector selects is a well-formed operation of its point, encoded as that vector (R39). -/
theorem decodeRs_some : ∀ rs : BitVec 5, ∀ op ∈ decodeRs rs,
    op.wf = true ∧ op.point = .rs ∧ encode op = [0#3 ++ rs] := by decide

/-- Settles O36, point by point: what the format makes of the bits it reads. -/
theorem decoderAnswersOnlyWellFormedOperationsOfItsPoint :
    Obligations.DecoderAnswersOnlyWellFormedOperationsOfItsPoint := by
  intro p bs i rest h
  cases p <;> rw [decode] at h
  case cmd =>
    obtain ⟨cmd, _, h⟩ := decodeControl_eq_ok h
    obtain ⟨keyIn, din, rfl⟩ := decodeTwoBlocks_eq_ok h
    exact decodeCmd_point cmd keyIn din
  case subyte =>
    obtain ⟨inv, d, rfl⟩ := decodeStage_eq_ok h
    exact decodeSubyte_point inv d
  case shiftrows =>
    obtain ⟨inv, d, rfl⟩ := decodeStage_eq_ok h
    exact decodeShiftrows_point inv d
  case mixcolumns =>
    obtain ⟨inv, d, rfl⟩ := decodeStage_eq_ok h
    exact decodeMixcolumns_point inv d
  case addroundkey =>
    obtain ⟨d, k, rfl⟩ := decodeTwoBlocks_eq_ok h
    exact ⟨rfl, rfl⟩
  case kx =>
    obtain ⟨v, _, h⟩ := decodeControl_eq_ok h
    obtain ⟨hwf, hp, -⟩ := decodeKx_some v i (decodedOr_eq_ok h)
    exact ⟨hwf, hp⟩
  case rs =>
    obtain ⟨v, _, h⟩ := decodeControl_eq_ok h
    obtain ⟨hwf, hp, -⟩ := decodeRs_some v i (decodedOr_eq_ok h)
    exact ⟨hwf, hp⟩

/-- The reserved KX vectors (R38, R41). -/
theorem decodeKx_eq_none_iff : ∀ i : BitVec 4, decodeKx i = none ↔ i = 0 ∨ 11 ≤ i := by decide

/-- The reserved RS vectors (R39, R41). -/
theorem decodeRs_eq_none_iff : ∀ rs : BitVec 5, decodeRs rs = none ↔ 11 ≤ rs.extractLsb' 0 4 := by decide

/-- Settles O37: the reserved vectors by enumeration, and the encoding of what any other vector selects. -/
theorem kxAndRsVectorsHaveOneMeaning : Obligations.KxAndRsVectorsHaveOneMeaning :=
  ⟨fun i => ⟨decodeKx_eq_none_iff i, fun op h => (decodeKx_some i op h).2⟩,
    fun rs => ⟨decodeRs_eq_none_iff rs, fun op h => (decodeRs_some rs op h).2⟩⟩

end Sys2Proof
end

section
/-! What a step does to the control: `(phase, cnt, done_r)` after a step is one function of `(phase, cnt, done_r)`, `rst` and
`start` (spec/44_core_control.md R77, R86; spec/70_reset_and_hazards.md R105). The statements about the control are read off
that function. -/

namespace Sys2Proof.Machine

/-! ## The control function -/

/-- `done_r` after a step without reset: set by the last round step, cleared by an accept (R79, R80, R84). -/
def nextDone (start : Bit) (phase : Phase) (cnt : BitVec 4) (doneR : Bit) : Bit :=
  if phase = .rnd ∧ cnt = 10 then 1 else if phase = .idle ∧ start = 1 then 0 else doneR

/-- The control after a step: reset, the next position of the fixed path, or nothing in a reserved control state. -/
def nextControl (rst start : Bit) (phase : Phase) (cnt : BitVec 4) (doneR : Bit) : Option (Phase × BitVec 4 × Bit) :=
  if rst = 1 then some (.idle, 0, 0)
  else if legalControl phase cnt then
    some ((nextPosition start phase cnt).1, (nextPosition start phase cnt).2, nextDone start phase cnt doneR)
  else none

/-- The same function with the inputs and the control of a state. -/
def State.nextControl (s : State) : Option (Phase × BitVec 4 × Bit) :=
  Machine.nextControl s.inputs.rst s.inputs.start s.phase s.cnt s.doneR

/-- An idle core with count 0 is in a legal control state (R12). -/
theorem legal_of_idle {s : State} (hp : s.phase = .idle) (hc : s.cnt = 0) : s.legal := by
  simp [State.legal, legalControl, hp, hc]

/-- A core in KEXP with a KX index is in a legal control state (R12). -/
theorem legal_of_kexp {s : State} (hp : s.phase = .kexp) (hk : keyIndexOk s.cnt = true) : s.legal := by
  simp [State.legal, legalControl, hp, hk]

/-- A core in RND with a count 0..10 is in a legal control state (R12). -/
theorem legal_of_rnd {s : State} (hp : s.phase = .rnd) (hc : s.cnt ≤ 10) : s.legal := by
  simpa [State.legal, legalControl, hp] using hc

theorem nextControl_of_reset {s : State} (hr : s.inputs.rst = 1) : s.nextControl = some (.idle, 0, 0) := if_pos hr

theorem nextControl_of_legal {s : State} (hr : s.inputs.rst = 0) (hl : s.legal) :
    s.nextControl = some ((nextPosition s.inputs.start s.phase s.cnt).1, (nextPosition s.inputs.start s.phase s.cnt).2,
      nextDone s.inputs.start s.phase s.cnt s.doneR) := by
  rw [State.nextControl, nextControl, hr, if_neg (by decide), if_pos hl]

theorem nextControl_of_not_legal {s : State} (hr : s.inputs.rst = 0) (hl : ¬ s.legal) : s.nextControl = none := by
  rw [State.nextControl, nextControl, hr, if_neg (by decide), if_neg hl]

/-- The control of an outcome does not see what the host presents next. -/
theorem controlOf_mapNext_presentNext (o : Result) : controlOf (mapNext State.presentNext o) = controlOf o := by
  cases o with
  | next u => simp [mapNext, controlOf]
  | fault f => rfl
  | refused r => rfl

/-- A count above 10 is reserved in phase RND. -/
theorem not_le_of_eleven_le : ∀ {c : BitVec 4}, 11 ≤ c → ¬ c ≤ 10 := by decide

/-- In every case of a step the control of the outcome is the control function. -/
theorem controlOf_of_stepCase {s : State} {o : Result} (h : StepCase s o) : controlOf o = s.nextControl := by
  cases h with
  | reset hr => rw [nextControl_of_reset hr]; rfl
  | idleNop hr hp hc hs =>
    rw [nextControl_of_legal hr (legal_of_idle hp hc)]
    simp [controlOf, nextPosition, nextDone, hp, hs]
  | accept hr hp hc hs =>
    rw [nextControl_of_legal hr (legal_of_idle hp hc)]
    simp [controlOf, nextPosition, nextDone, hp, hs]
  | key prev n hr hp hk _ _ =>
    rw [nextControl_of_legal hr (legal_of_kexp hp hk)]
    by_cases h10 : s.cnt = 10#4 <;> simp [controlOf, nextPosition, nextDone, hp, h10]
  | round u hr hp hc _ hw =>
    rw [nextControl_of_legal hr (legal_of_rnd hp hc)]
    by_cases h10 : s.cnt = 10#4
    · obtain ⟨hp', hc', hd'⟩ := hw.last h10
      simp [controlOf, nextPosition, nextDone, hp, h10, hp', hc', hd']
    · obtain ⟨hp', hc', hd'⟩ := hw.middle h10
      simp [controlOf, nextPosition, nextDone, hp, h10, hp', hc', hd']
  | stuckIdle hr hp hc =>
    rw [nextControl_of_not_legal hr (by simpa [hp, legalControl] using hc)]
    rfl
  | stuckKey hr hp hk =>
    rw [nextControl_of_not_legal hr (by simp [hp, legalControl, hk])]
    rfl
  | stuckRound hr hp hc =>
    rw [nextControl_of_not_legal hr (by simpa [hp, legalControl] using not_le_of_eleven_le hc)]
    rfl
  | stuckReserved hr hp =>
    rw [nextControl_of_not_legal hr (by simp [hp, legalControl])]
    rfl

/-- The control after a step is the control function. -/
theorem controlOf_step (s : State) : controlOf (step s) = s.nextControl :=
  (controlOf_mapNext_presentNext _).trans (controlOf_of_stepCase (stepCase s))

/-- No step is refused. -/
theorem step_ne_refused (s : State) (r : Refusal) : step s ≠ .refused r := by
  intro h
  have hc := stepCase s
  unfold step at h
  generalize exec s.fetch s = o at h hc
  cases hc <;> cases h

/-- Where the control function has a value, the step answers a next state with that control. -/
theorem step_next_of_nextControl {s : State} {phase : Phase} {cnt : BitVec 4} {doneR : Bit}
    (h : s.nextControl = some (phase, cnt, doneR)) :
    ∃ t, step s = .next t ∧ t.phase = phase ∧ t.cnt = cnt ∧ t.doneR = doneR := by
  have hc := (controlOf_step s).trans h
  cases ho : step s with
  | next t =>
    rw [ho] at hc
    cases hc
    exact ⟨t, rfl, rfl, rfl, rfl⟩
  | fault f => rw [ho] at hc; cases hc
  | refused r => exact absurd ho (step_ne_refused s r)

/-- A next state has the control that the control function gives. -/
theorem nextControl_of_step {s t : State} (h : step s = .next t) : s.nextControl = some (t.phase, t.cnt, t.doneR) := by
  rw [← controlOf_step, h]
  rfl

/-! ## Reset -/

/-- A step with `rst = 1` writes the control, whatever else stands at the ports (R97). -/
theorem step_reset {s : State} (hr : s.inputs.rst = 1) : step s = .next s.resetControl.presentNext :=
  step_eq_next.2 ⟨_, exec_fetch_rst hr, rfl⟩

/-- Settles O42: the step writes the control registers to their reset values, and `dout` has no value without `done_r`. -/
theorem resetRecoversFromEveryState : Obligations.ResetRecoversFromEveryState := by
  intro s hr
  exact ⟨_, step_reset hr, by simp [State.dout]⟩

/-! ## The fixed path -/

/-- The fixed path stays within the legal control states. -/
theorem legalControl_nextPosition (start : Bit) {phase : Phase} {cnt : BitVec 4} (h : legalControl phase cnt = true) :
    legalControl (nextPosition start phase cnt).1 (nextPosition start phase cnt).2 = true := by
  cases phase <;> revert start cnt <;> decide

/-- A step without reset in a legal control state answers the next position of the path. -/
theorem step_legal {s : State} (hl : s.legal) (hr : s.inputs.rst = 0) :
    ∃ t, step s = .next t ∧ (t.phase, t.cnt) = nextPosition s.inputs.start s.phase s.cnt ∧
      t.doneR = nextDone s.inputs.start s.phase s.cnt s.doneR := by
  obtain ⟨t, ht, hp, hc, hd⟩ := step_next_of_nextControl (nextControl_of_legal hr hl)
  exact ⟨t, ht, by rw [hp, hc], hd⟩

/-- Settles O46: the next state of `step_legal` is the only one. -/
theorem controlFollowsTheFixedPath : Obligations.ControlFollowsTheFixedPath := by
  intro s t hl hr ht
  obtain ⟨u, hu, hpos, hdone⟩ := step_legal hl hr
  cases hu.symm.trans ht
  exact ⟨hpos, hdone⟩

/-- Settles O44: a reset leads to (IDLE, 0), any other step along the fixed path. -/
theorem everyStepKeepsTheControlLegal : Obligations.EveryStepKeepsTheControlLegal := by
  intro s hl
  have hnext : ∃ t, step s = .next t ∧ t.legal := by
    rcases bit_cases s.inputs.rst with hr | hr
    · obtain ⟨t, ht, hpos, -⟩ := step_legal hl hr
      have hlegal := legalControl_nextPosition s.inputs.start hl
      rw [← hpos] at hlegal
      exact ⟨t, ht, hlegal⟩
    · exact ⟨_, step_reset hr, legal_of_idle (by simp) (by simp)⟩
  obtain ⟨t, ht, hlegal⟩ := hnext
  refine ⟨⟨t, ht⟩, fun u hu => ?_⟩
  cases ht.symm.trans hu
  exact hlegal

/-! ## The reserved control states -/

/-- The only fault of a step: without reset in a reserved control state, which it names. -/
theorem stepCase_fault {s : State} {f : Fault} (h : StepCase s (.fault f)) :
    s.inputs.rst = 0 ∧ f = .unreachableControlState s.phase s.cnt := by
  cases h <;> exact ⟨‹_›, rfl⟩

/-- A step without reset in a reserved control state faults. -/
theorem step_of_not_legal {s : State} (hr : s.inputs.rst = 0) (hl : ¬ s.legal) :
    step s = .fault (.unreachableControlState s.phase s.cnt) := by
  have hc := (controlOf_step s).trans (nextControl_of_not_legal hr hl)
  cases ho : step s with
  | next t => rw [ho] at hc; cases hc
  | fault f =>
    have hf := stepCase s
    rw [step_eq_fault.1 ho] at hf
    rw [(stepCase_fault hf).2]
  | refused r => exact absurd ho (step_ne_refused s r)

/-- Settles O40: in a legal control state a step answers a next state, in a reserved one it faults without reset. -/
theorem reservedControlStatesFaultAndOnlyThey : Obligations.ReservedControlStatesFaultAndOnlyThey := by
  refine ⟨fun s f => ⟨fun h => ?faults, fun ⟨hr, hl, hf⟩ => ?reserved⟩, step_ne_refused⟩
  case faults =>
    have hc := stepCase s
    rw [step_eq_fault.1 h] at hc
    obtain ⟨hr, hf⟩ := stepCase_fault hc
    refine ⟨hr, fun hl => ?_, hf⟩
    obtain ⟨t, ht, -⟩ := step_legal hl hr
    cases ht.symm.trans h
  case reserved => rw [hf, step_of_not_legal hr hl]

/-! ## The outputs -/

/-- `busy` tells whether the core is out of IDLE (R10). -/
theorem busy_eq_one_iff (s : State) : s.busy = 1 ↔ s.phase ≠ .idle := by
  by_cases h : s.phase = .idle <;> simp [State.busy, h]

/-- Settles O38: the three outputs as they are defined. -/
theorem outputsAreFunctionsOfTheState : Obligations.OutputsAreFunctionsOfTheState := by
  intro s
  exact ⟨busy_eq_one_iff s, rfl, fun h => if_pos h, fun h => if_neg (by rw [h]; decide)⟩

/-- Settles O47: a step that leaves the core busy is an accept, which clears `done_r`, or keeps the `done_r` of a busy core. -/
theorem everyStepKeepsBusyAndDoneExclusive : Obligations.EveryStepKeepsBusyAndDoneExclusive := by
  intro s t hs ht
  obtain ⟨u, hu, rfl⟩ := step_eq_next.1 ht
  have hc := stepCase s
  rw [hu] at hc
  simp only [State.flagsExclusive, busy_eq_one_iff, State.done, State.presentNext_phase, State.presentNext_doneR] at hs ⊢
  cases hc with
  | reset _ => simp
  | idleNop => exact hs
  | accept => simp
  | key prev n _ hp _ _ _ =>
    rintro ⟨-, hd⟩
    exact hs ⟨by simp [hp], by simpa using hd⟩
  | round _ _ hp _ _ hw =>
    rintro ⟨hbusy, hd⟩
    by_cases h10 : s.cnt = 10
    · exact hbusy (hw.last h10).1
    · exact hs ⟨by simp [hp], (hw.middle h10).2.2 ▸ hd⟩

/-! ## The sampled command -/

/-- Settles O32: a step is `mapNext` over `exec`, the host's part is `presentNext`, and a sampled command has an encoding. -/
theorem stepRunsTheSampledCommand : Obligations.StepRunsTheSampledCommand := by
  refine ⟨fun s t h => step_eq_next.2 ⟨t, h, rfl⟩, fun s f h => step_eq_fault.2 h, fun s r h => ?refused,
    State.presentNext_cons, State.presentNext_nil, fun s => (decodeCmd_point _ _ _).1⟩
  case refused => exact step_ne_refused s r (by rw [step, h]; rfl)

/-! ## The state after reset -/

/-- Settles O39: the state after reset, field by field, and RST writes what is there. -/
theorem resetStateIsIdle : Obligations.ResetStateIsIdle := ⟨rfl, rfl, rfl, rfl, rfl, rfl, rfl⟩

/-- Settles O45: each invariant evaluates on the state after reset; no operation runs, so no schedule entry is due. -/
theorem resetMeetsTheInvariants : Obligations.ResetMeetsTheInvariants := by
  refine ⟨rfl, by decide, ⟨?subyte, rfl, rfl, rfl, ?key⟩, ⟨rfl, rfl, rfl⟩, fun j hj => absurd hj (Nat.not_lt_zero _)⟩
  case subyte => decide
  case key => intro h; cases h

end Sys2Proof.Machine
end

section
/-! The key schedule as a chain of key steps (spec/42_key_expand.md R65, R66), the inverse matrix (spec/41_round_stages.md
R58), the stage laws the other way round (R60), and Encrypt after Decrypt (spec/43_cipher.md R69). -/

namespace Sys2Proof.Machine

open Function

/-! ## The key schedule -/

/-- Entry 0 of the schedule is the key (R65). -/
theorem expandKey_zero (k : Block) : (expandKey k)[0] = k := rfl

/-- Each later entry is the key step of the one before (R65). -/
theorem keyStep_expandKey (k : Block) {i : Nat} (hi : i + 1 < Config.roundKeys) :
    keyStep (expandKey k)[i] (BitVec.ofNat 4 (i + 1)) = some (expandKey k)[i + 1] := by
  have hi' : i < 10 := Nat.lt_of_succ_lt_succ hi
  interval_cases i <;> rfl

/-- Settles O50: entry 0, and the chain. -/
theorem expandKeyChainsTheKeySteps : Obligations.ExpandKeyChainsTheKeySteps := by
  refine fun k => ⟨expandKey_zero k, fun i h1 h10 => ?chain⟩
  case chain =>
    obtain ⟨j, rfl⟩ := Nat.exists_eq_add_of_le' h1
    have hj : j + 1 < Config.roundKeys := Nat.lt_succ_of_le h10
    exact ⟨_, _, Vector.getElem?_eq_getElem (Nat.lt_of_succ_lt hj), Vector.getElem?_eq_getElem hj, keyStep_expandKey k hj⟩

/-! ## InvMixWord as a matrix -/

/-- A row of MixWord's matrix on corrected bytes: the row on the bytes themselves, and what the corrections `u` and `v`
add, of which one `v` cancels the other. -/
theorem row_correct (x y z w u v : Byte) :
    mul2 (x ^^^ u) ^^^ mul3 (y ^^^ v) ^^^ (z ^^^ u) ^^^ (w ^^^ v) =
      mul2 x ^^^ mul3 y ^^^ z ^^^ w ^^^ (xtime u ^^^ u ^^^ xtime v) := by
  have hv : (y ^^^ v) ^^^ (w ^^^ v) = y ^^^ w := xor_xor_xor_cancel_right y w v
  calc mul2 (x ^^^ u) ^^^ mul3 (y ^^^ v) ^^^ (z ^^^ u) ^^^ (w ^^^ v)
    _ = xtime x ^^^ xtime u ^^^ xtime y ^^^ xtime v ^^^ z ^^^ u ^^^ ((y ^^^ v) ^^^ (w ^^^ v)) := by
      rw [mul2, mul3, xtime_xor, xtime_xor]; ac_rfl
    _ = mul2 x ^^^ mul3 y ^^^ z ^^^ w ^^^ (xtime u ^^^ u ^^^ xtime v) := by
      rw [hv, mul2, mul3]; ac_rfl

/-- With the corrections of R58 the row 2, 3, 1, 1 becomes the row 14, 11, 13, 9. -/
theorem row_correct_eq_inverse_row {x y z w u v : Byte} (hu : xtime (xtime (x ^^^ z)) = u)
    (hv : xtime (xtime (y ^^^ w)) = v) :
    mul2 (x ^^^ u) ^^^ mul3 (y ^^^ v) ^^^ (z ^^^ u) ^^^ (w ^^^ v) = mul14 x ^^^ mul11 y ^^^ mul13 z ^^^ mul9 w := by
  rw [row_correct, ← hu, ← hv, mul2, mul3, mul14, mul11, mul13, mul9]
  simp only [xtime_xor]
  ac_rfl

/-- Settles O5: the four rows are one row on the word rotated, which exchanges the two corrections. -/
theorem invMixWordIsTheInverseMatrix : Obligations.InvMixWordIsTheInverseMatrix := by
  intro a b c d
  simp only [invMixWord_eq, correctWord, mixWord_eq_matrix, Word.mk.injEq]
  generalize hu : xtime (xtime (a ^^^ c)) = u
  generalize hv : xtime (xtime (b ^^^ d)) = v
  have hu' : xtime (xtime (c ^^^ a)) = u := by rw [BitVec.xor_comm c a, hu]
  have hv' : xtime (xtime (d ^^^ b)) = v := by rw [BitVec.xor_comm d b, hv]
  have ha := row_correct_eq_inverse_row hu hv
  have hb := row_correct_eq_inverse_row hv hu'
  have hc := row_correct_eq_inverse_row hu' hv'
  have hd := row_correct_eq_inverse_row hv' hu
  exact ⟨ha, .trans (by ac_rfl) (hb.trans (by ac_rfl)), .trans (by ac_rfl) (hc.trans (by ac_rfl)),
    .trans (by ac_rfl) (hd.trans (by ac_rfl))⟩

/-! ## The stages the other way round -/

/-- ShiftRows undoes InvShiftRows: `r` columns to the right of `c`, and from there `r` to the left, stands `c` (R60). -/
theorem shiftRows_leftInverse_invShiftRows : LeftInverse shiftRows invShiftRows := by
  intro b
  refine block_ext_grid fun r hr c hc => ?_
  have hback : ((c + r) % 4 + 4 - r) % 4 = c := by omega
  rw [byteOf_shiftRows _ hr hc, byteOf_invShiftRows b hr (Nat.mod_lt _ (by omega)), hback]

/-- A function on bytes commutes with ShiftRows, which only moves bytes. -/
theorem mapBytes_shiftRows (f : Byte → Byte) (b : Block) : mapBytes f (shiftRows b) = shiftRows (mapBytes f b) := by
  refine block_ext_grid fun r hr c hc => ?_
  have hto : r + 4 * ((c + r) % 4) < 16 := by omega
  rw [byteOf_mapBytes f _ (by omega), byteOf_shiftRows b hr hc, byteOf_shiftRows _ hr hc, byteOf_mapBytes f b hto]

/-- Settles O14: the inverse laws the other way round, and SubBytes as a function on bytes. -/
theorem stagesInvertTheOtherWayAndCommute : Obligations.StagesInvertTheOtherWayAndCommute := fun b =>
  ⟨subBytes_leftInverse_invSubBytes b, shiftRows_leftInverse_invShiftRows b, mixColumns_leftInverse_invMixColumns b,
    mapBytes_shiftRows sbox b⟩

end Sys2Proof.Machine
end

section
/-! The operations of formats KX and RS, each from any state (spec/42_key_expand.md R64; spec/43_cipher.md R70-R75;
spec/44_core_control.md R82-R84), and what they leave alone. -/

namespace Sys2Proof.Machine

/-- An outcome has one next state. -/
theorem next_unique {o : Result} {s t : State} (hs : o = .next s) (ht : o = .next t) : s = t :=
  Host.Outcome.next.inj (hs.symm.trans ht)

/-- An entry of the key store that is found is the entry. -/
theorem eq_getElem_of_getElem? {rk : Vector Block Config.roundKeys} {j : Nat} {key : Block} (hj : j < Config.roundKeys)
    (h : rk[j]? = some key) : rk[j] = key :=
  Option.some.inj ((Vector.getElem?_eq_getElem hj).symm.trans h)

/-- The indices of a middle round as a range. -/
theorem middleRoundOk_iff (k : BitVec 4) : middleRoundOk k = true ↔ 1 ≤ k ∧ k ≤ 9 := by
  simp [middleRoundOk]

/-! ## The key step -/

/-- The index below that of a key step does not wrap. -/
theorem toNat_pred_of_keyIndexOk : ∀ {i : BitVec 4}, keyIndexOk i = true → (i - 1).toNat = i.toNat - 1 := by decide

/-- The index of a key step is an entry of the key store. -/
theorem toNat_lt_of_keyIndexOk : ∀ {i : BitVec 4}, keyIndexOk i = true → i.toNat < Config.roundKeys := by decide

/-- What KEYSTEP writes to the key store: entry `i`, and no other (R82). -/
theorem getElem?_keyStep (s : State) {i : BitVec 4} (hi : keyIndexOk i = true) (prev n : Block) (j : Nat) :
    (((s.driveKeyExpand prev i n).writeRk i n).advanceKey i).rk[j]? = if i.toNat = j then some n else s.rk[j]? := by
  have hlt := toNat_lt_of_keyIndexOk hi
  simp only [State.advanceKey_rk, State.writeRk_rk, State.driveKeyExpand_rk, Vector.getElem?_setIfInBounds, hlt, if_true]

/-- Settles O16: the entry that is written, the position after it, and the step of phase KEXP. -/
theorem keyStepWritesOneRoundKey : Obligations.KeyStepWritesOneRoundKey := by
  refine ⟨fun i s h1 h10 => ?writes, fun s hp h1 h10 => ⟨commandStep_kexp s hp, ?busy⟩⟩
  case writes =>
    have hi := (keyIndexOk_iff i).2 ⟨h1, h10⟩
    obtain ⟨prev, n, hr, hn, he⟩ := execKeyStep_next hi s
    have hprev : s.rk[i.toNat - 1]? = some prev := toNat_pred_of_keyIndexOk hi ▸ hr
    refine ⟨prev, n, _, hprev, hn, he, ?_, fun j hj => ?_, fun h => ?_, fun h => ?_, ?_, ?_, ?_⟩
    · rw [getElem?_keyStep s hi, if_pos rfl]
    · rw [getElem?_keyStep s hi, if_neg (Ne.symm hj)]
    · simp [h]
    · rw [State.advanceKey_phase, State.advanceKey_cnt, if_neg h, if_neg h]
      exact ⟨rfl, rfl⟩
    all_goals simp
  case busy =>
    obtain ⟨prev, n, -, -, he⟩ := execKeyStep_next ((keyIndexOk_iff s.cnt).2 ⟨h1, h10⟩) s
    refine ⟨_, (commandStep_kexp s hp).trans he, (busy_eq_one_iff _).2 ?_⟩
    by_cases h : s.cnt = 10#4 <;> simp [hp, h]

/-- Settles O17: the decoder on the indices in and out of the range, and the fault of the reserved ones. -/
theorem kxIndexSelectsTheKeyStep : Obligations.KxIndexSelectsTheKeyStep := by
  refine ⟨fun i h1 h10 => decodeKx_of_ok ((keyIndexOk_iff i).2 ⟨h1, h10⟩),
    fun i h => ⟨(decodeKx_eq_none_iff i).2 h, fun s => execKeyStep_fault ?_ s⟩, fun s hp => commandStep_kexp s hp⟩
  revert i
  decide

/-! ## The round steps -/

/-- Settles O18: the writes of ENC_INIT; a block added to itself is zero. -/
theorem encInitAddsRoundKeyZero : Obligations.EncInitAddsRoundKeyZero := by
  refine ⟨fun s => ⟨s.rk[0], _, rfl, execEncInit_eq s, by simp⟩, fun s t hkey ht => ?zero⟩
  case zero =>
    obtain rfl := next_unique (execEncInit_eq s) ht
    have hkey' : s.rk[0] = s.sR := eq_getElem_of_getElem? (by decide) hkey
    change s.sR ^^^ s.rk[0] = 0
    rw [hkey']
    exact BitVec.xor_self

/-- Settles O19: the writes of ENC_ROUND in its range. -/
theorem encRoundRunsOneMiddleRound : Obligations.EncRoundRunsOneMiddleRound := by
  intro k s h1 h9
  obtain ⟨hk, he⟩ := execEncRound_eq ((middleRoundOk_iff k).2 ⟨h1, h9⟩) s
  exact ⟨_, _, Vector.getElem?_eq_getElem hk, he, by simp⟩

/-- Settles O20: the writes of ENC_FINAL. -/
theorem encFinalRunsTheLastRoundAndCompletes : Obligations.EncFinalRunsTheLastRoundAndCompletes := fun s =>
  ⟨s.rk[10], _, rfl, execEncFinal_eq s, by simp [State.busy, State.done, State.dout]⟩

/-- Settles O21: the writes of DEC_INIT. -/
theorem decInitRunsTheFirstInverseRound : Obligations.DecInitRunsTheFirstInverseRound := fun s =>
  ⟨s.rk[10], _, rfl, execDecInit_eq s, by simp⟩

/-- The key index of a middle decrypt step does not wrap. -/
theorem toNat_ten_sub_of_middleRoundOk : ∀ {k : BitVec 4}, middleRoundOk k = true → (10 - k).toNat = 10 - k.toNat := by
  decide

/-- DEC_ROUND in its range, its key index written as a number. -/
theorem execDecRound_eq_toNat {k : BitVec 4} (h : middleRoundOk k = true) (s : State) :
    ∃ hk : 10 - k.toNat < Config.roundKeys,
      execDecRound k s = .next ((s.chainDecrypt s.rk[10 - k.toNat]).advanceRound k) := by
  have hd := execDecRound_eq h s
  simpa only [toNat_ten_sub_of_middleRoundOk h] using hd

/-- Settles O22: the writes of DEC_ROUND in its range. -/
theorem decRoundRunsOneMiddleInverseRound : Obligations.DecRoundRunsOneMiddleInverseRound := by
  intro k s h1 h9
  obtain ⟨hk, he⟩ := execDecRound_eq_toNat ((middleRoundOk_iff k).2 ⟨h1, h9⟩) s
  exact ⟨_, _, Vector.getElem?_eq_getElem hk, he, by simp⟩

/-- Settles O23: the writes of DEC_FINAL. -/
theorem decFinalAddsRoundKeyZeroAndCompletes : Obligations.DecFinalAddsRoundKeyZeroAndCompletes := fun s =>
  ⟨s.rk[0], _, rfl, execDecFinal_eq s, by simp [State.busy, State.done, State.dout]⟩

/-- Settles O41: neither a middle round nor an RS vector. -/
theorem roundOperationsOutsideTheirRangeFault : Obligations.RoundOperationsOutsideTheirRangeFault := by
  refine ⟨fun k s h => ?fault, by decide⟩
  case fault =>
    have hk : ¬ middleRoundOk k = true := by revert k; decide
    exact ⟨if_neg hk, if_neg hk⟩

/-- In phase RND a NOP is the operation that the RS vector selects (R39, R83). -/
theorem exec_nop_of_decodeRs {s : State} {op : Instr} (hp : s.phase = .rnd)
    (hd : decodeRs (s.modeR ++ s.cnt) = some op) : exec .nop s = exec op s :=
  (commandStep_rnd s hp).trans (roundPhaseStep_eq_exec hd)

/-- Settles O24: the operation that the decoder of format RS selects, row by row. -/
theorem roundPhaseRunsTheSelectedRound : Obligations.RoundPhaseRunsTheSelectedRound := by
  intro s hp
  refine ⟨fun hm hc => exec_nop_of_decodeRs hp (by rw [hm, hc]; rfl), fun hm h1 h9 => ?encRound,
    fun hm hc => exec_nop_of_decodeRs hp (by rw [hm, hc]; rfl), fun hm hc => exec_nop_of_decodeRs hp (by rw [hm, hc]; rfl),
    fun hm h1 h9 => ?decRound, fun hm hc => exec_nop_of_decodeRs hp (by rw [hm, hc]; rfl), fun hc => ?fault⟩
  case encRound =>
    refine exec_nop_of_decodeRs hp ?_
    rw [hm]
    exact decodeRs_encRound s.cnt ((middleRoundOk_iff s.cnt).2 ⟨h1, h9⟩)
  case decRound =>
    refine exec_nop_of_decodeRs hp ?_
    rw [hm]
    exact decodeRs_decRound s.cnt ((middleRoundOk_iff s.cnt).2 ⟨h1, h9⟩)
  case fault => exact (commandStep_rnd_fault s hp hc).trans (by rw [hp])

/-! ## The unit ports -/

@[simp] theorem subyteStage_zero (d : Block) : subyteStage 0#1 d = subBytes d := rfl
@[simp] theorem subyteStage_one (d : Block) : subyteStage 1#1 d = invSubBytes d := rfl
@[simp] theorem shiftrowsStage_zero (d : Block) : shiftrowsStage 0#1 d = shiftRows d := rfl
@[simp] theorem shiftrowsStage_one (d : Block) : shiftrowsStage 1#1 d = invShiftRows d := rfl
@[simp] theorem mixcolumnsStage_zero (d : Block) : mixcolumnsStage 0#1 d = mixColumns d := rfl
@[simp] theorem mixcolumnsStage_one (d : Block) : mixcolumnsStage 1#1 d = invMixColumns d := rfl

/-- Settles O25: the chain of SEL operations runs by definition, and the ports it leaves are those of the round step. -/
theorem roundStepsAreChainsOfStageOperations : Obligations.RoundStepsAreChainsOfStageOperations := by
  intro s key
  refine ⟨fun hkey => ?encInit, fun k h1 h9 hkey => ?encRound, fun hkey => ?encFinal, fun hkey => ?decInit,
    fun k h1 h9 hkey => ?decRound, fun hkey => ?decFinal⟩
  case encInit =>
    obtain rfl := eq_getElem_of_getElem? (by decide) hkey
    exact ⟨_, _, execEncInit_eq s, rfl, by simp [unitsKept, hostKept]⟩
  case encRound =>
    obtain ⟨hk, he⟩ := execEncRound_eq ((middleRoundOk_iff k).2 ⟨h1, h9⟩) s
    obtain rfl := eq_getElem_of_getElem? hk hkey
    exact ⟨_, _, he, rfl, by simp [unitsKept, hostKept]⟩
  case encFinal =>
    obtain rfl := eq_getElem_of_getElem? (by decide) hkey
    exact ⟨_, _, execEncFinal_eq s, rfl, by simp [unitsKept, hostKept]⟩
  case decInit =>
    obtain rfl := eq_getElem_of_getElem? (by decide) hkey
    exact ⟨_, _, execDecInit_eq s, rfl, by simp [unitsKept, hostKept]⟩
  case decRound =>
    obtain ⟨hk, he⟩ := execDecRound_eq_toNat ((middleRoundOk_iff k).2 ⟨h1, h9⟩) s
    obtain rfl := eq_getElem_of_getElem? hk hkey
    exact ⟨_, _, he, rfl, by simp [unitsKept, hostKept]⟩
  case decFinal =>
    obtain rfl := eq_getElem_of_getElem? (by decide) hkey
    exact ⟨_, _, execDecFinal_eq s, rfl, by simp [unitsKept, hostKept]⟩

/-- Settles O43: what a command, a SEL operation or a key step answers, and the fields that it does not write. -/
theorem commandsAndStagesKeepTheRestOfTheState : Obligations.CommandsAndStagesKeepTheRestOfTheState := by
  refine ⟨fun s t h => ?rst, fun k d s hp hc => ⟨fun t h => ?nop, fun t h => ?enc, fun t h => ?dec⟩, fun d s t h => ?subyte,
    fun d s t h => ?shiftrows, fun d s t h => ?mixcolumns, fun d k s t h => ?addroundkey, fun i s t h => ?key⟩
  case rst =>
    obtain rfl := next_unique (exec_rst s) h
    exact ⟨⟨rfl, rfl, rfl, rfl, rfl⟩, rfl, rfl, rfl⟩
  case nop =>
    obtain rfl := next_unique (commandStep_idle s hp hc) h
    exact ⟨⟨rfl, rfl, rfl, rfl, rfl⟩, rfl, rfl, rfl⟩
  case enc =>
    obtain rfl := next_unique (commandStep_idle (s.accept 0 k d) hp hc) h
    exact ⟨⟨rfl, rfl, rfl, rfl, rfl⟩, rfl, rfl, rfl⟩
  case dec =>
    obtain rfl := next_unique (commandStep_idle (s.accept 1 k d) hp hc) h
    exact ⟨⟨rfl, rfl, rfl, rfl, rfl⟩, rfl, rfl, rfl⟩
  case subyte => rcases h with h | h <;> cases h <;> exact ⟨⟨rfl, rfl, rfl⟩, rfl, rfl, rfl, rfl⟩
  case shiftrows => rcases h with h | h <;> cases h <;> exact ⟨⟨rfl, rfl, rfl⟩, rfl, rfl, rfl, rfl⟩
  case mixcolumns => rcases h with h | h <;> cases h <;> exact ⟨⟨rfl, rfl, rfl⟩, rfl, rfl, rfl, rfl⟩
  case addroundkey => cases h; exact ⟨⟨rfl, rfl, rfl⟩, rfl, rfl, rfl, rfl⟩
  case key =>
    rcases execKeyStep_eq i s with ⟨prev, n, -, hn, he⟩ | ⟨-, he⟩
    · obtain rfl := next_unique he h
      have hi : keyIndexOk i = true := (keyStep_isSome_iff prev i).1 (by rw [hn]; rfl)
      refine ⟨by simp [hostKept], by simp, by simp, by simp, by simp, by simp, ?_⟩
      rw [getElem?_keyStep s hi, if_pos rfl, State.advanceKey_keyExpand]
      rfl
    · cases he.symm.trans h

end Sys2Proof.Machine
end

section
/-! The working block step by step (spec/43_cipher.md R67, R68, R76): what a round step does to `s_r`, in either mode and
from any state, and the block after the first `n` round steps. Every decrypt step undoes an encrypt step, the last one first,
which gives both the mirror of R76 and Encrypt after Decrypt. -/

namespace Sys2Proof.Machine

/-- What encrypt step `i` does to the working block, with the key store `rk` (R70-R72). -/
def encryptStep (rk : Vector Block Config.roundKeys) (i : Nat) (b : Block) : Block :=
  if i = 0 then addRoundKey b rk[0] else if i = 10 then encryptFinal b rk[10] else encryptRound b rk[i]!

/-- What decrypt step `i` does to the working block, with the key store `rk` (R73-R75). -/
def decryptStep (rk : Vector Block Config.roundKeys) (i : Nat) (b : Block) : Block :=
  if i = 0 then decryptInit b rk[10] else if i = 10 then addRoundKey b rk[0] else decryptRound b rk[10 - i]!

/-- What round step `i` does to the working block in mode `m` (R39). -/
def roundBlock (m : Bit) (rk : Vector Block Config.roundKeys) : Nat → Block → Block :=
  if m = 0 then encryptStep rk else decryptStep rk

/-- The working block after the first `n` of the steps `f`. -/
def blockAfterSteps (f : Nat → Block → Block) (b : Block) : Nat → Block
  | 0 => b
  | n + 1 => f n (blockAfterSteps f b n)

/-! ## The round operations on the working block -/

/-- A middle encrypt step, its key read from the store. -/
theorem encryptStep_middle (rk : Vector Block Config.roundKeys) {i : Nat} (h0 : i ≠ 0) (h10 : i < 10)
    (hi : i < Config.roundKeys) (b : Block) : encryptStep rk i b = encryptRound b rk[i] := by
  rw [encryptStep, if_neg h0, if_neg (Nat.ne_of_lt h10), getElem!_pos rk i hi]

/-- A middle decrypt step, its key read from the store. -/
theorem decryptStep_middle (rk : Vector Block Config.roundKeys) {i : Nat} (h0 : i ≠ 0) (h10 : i < 10)
    (hi : 10 - i < Config.roundKeys) (b : Block) : decryptStep rk i b = decryptRound b rk[10 - i] := by
  rw [decryptStep, if_neg h0, if_neg (Nat.ne_of_lt h10), getElem!_pos rk (10 - i) hi]

/-- The index of a middle round, as a number. -/
theorem toNat_of_middleRoundOk : ∀ {k : BitVec 4}, middleRoundOk k = true → k.toNat ≠ 0 ∧ k.toNat < 10 := by decide

/-- What the round operation of an RS vector answers, from any state: the working block, the key store, and units that
answer their inputs (R70-R75). -/
theorem exec_round {m : Bit} {c : BitVec 4} {op : Instr} (h : decodeRs (m ++ c) = some op) (s : State) :
    ∃ t, exec op s = .next t ∧ t.sR = roundBlock m s.rk c.toNat s.sR ∧ t.rk = s.rk ∧
      (s.unitsAnswer → t.unitsAnswer) := by
  rcases decodeRs_cases m c with ⟨rfl, rfl, hd⟩ | ⟨rfl, hk, hd⟩ | ⟨rfl, rfl, hd⟩ | ⟨rfl, rfl, hd⟩ | ⟨rfl, hk, hd⟩ |
    ⟨rfl, rfl, hd⟩ | ⟨-, hd⟩ <;> cases hd.symm.trans h
  · exact ⟨_, execEncInit_eq s, by simp [roundBlock, encryptStep], by simp, by simp [State.unitsAnswer]⟩
  · obtain ⟨hlt, he⟩ := execEncRound_eq hk s
    obtain ⟨h0, h10⟩ := toNat_of_middleRoundOk hk
    have hblock := encryptStep_middle s.rk h0 h10 hlt s.sR
    exact ⟨_, he, by simp [roundBlock, hblock, encryptRound], by simp, by simp [State.unitsAnswer]⟩
  · exact ⟨_, execEncFinal_eq s, by simp [roundBlock, encryptStep, encryptFinal], by simp, by simp [State.unitsAnswer]⟩
  · exact ⟨_, execDecInit_eq s, by simp [roundBlock, decryptStep, decryptInit], by simp, by simp [State.unitsAnswer]⟩
  · obtain ⟨hlt, he⟩ := execDecRound_eq_toNat hk s
    obtain ⟨h0, h10⟩ := toNat_of_middleRoundOk hk
    have hblock := decryptStep_middle s.rk h0 h10 hlt s.sR
    exact ⟨_, he, by simp [roundBlock, hblock, decryptRound], by simp, by simp [State.unitsAnswer]⟩
  · exact ⟨_, execDecFinal_eq s, by simp [roundBlock, decryptStep], by simp, by simp [State.unitsAnswer]⟩

/-- What the round step of phase RND does to the working block and the units (R83). -/
theorem roundPhaseStep_block {s u : State} (hc : s.cnt ≤ 10) (h : s.roundPhaseStep = .next u) :
    u.sR = roundBlock s.modeR s.rk s.cnt.toNat s.sR ∧ (s.unitsAnswer → u.unitsAnswer) := by
  obtain ⟨op, hd⟩ := Option.isSome_iff_exists.1 ((decodeRs_isSome_iff s.modeR s.cnt).2 hc)
  obtain ⟨t, ht, hblock, -, hunits⟩ := exec_round hd s
  obtain rfl := next_unique ((roundPhaseStep_eq_exec hd).trans ht) h
  exact ⟨hblock, hunits⟩

/-! ## The block functions -/

/-- The block after all eleven steps, written out. -/
theorem blockAfterSteps_eleven (f : Nat → Block → Block) (b : Block) :
    blockAfterSteps f b 11 = f 10 (f 9 (f 8 (f 7 (f 6 (f 5 (f 4 (f 3 (f 2 (f 1 (f 0 b)))))))))) := rfl

/-- Encrypt is the eleven encrypt steps (R67). -/
theorem encrypt_eq_blockAfterSteps (p k : Block) : encrypt p k = blockAfterSteps (encryptStep (expandKey k)) p 11 := by
  rw [encrypt, blockAfterSteps_eleven]
  generalize expandKey k = rk
  simp (disch := decide) only [encryptStep_middle]
  rfl

/-- Decrypt is the eleven decrypt steps (R68). -/
theorem decrypt_eq_blockAfterSteps (c k : Block) : decrypt c k = blockAfterSteps (decryptStep (expandKey k)) c 11 := by
  rw [decrypt, blockAfterSteps_eleven]
  generalize expandKey k = rk
  simp (disch := decide) only [decryptStep_middle]
  rfl

/-! ## Each step undoes one of the other mode -/

/-- The final encrypt round undoes the first decrypt round with the same round key; neither mixes columns. -/
theorem encryptFinal_decryptInit (s k : Block) : encryptFinal (decryptInit s k) k = s := by
  rw [encryptFinal, decryptInit, subBytes_leftInverse_invSubBytes, shiftRows_leftInverse_invShiftRows,
    addRoundKey_addRoundKey]

/-- A middle encrypt round undoes the middle decrypt round with the same round key. -/
theorem encryptRound_decryptRound (s k : Block) : encryptRound (decryptRound s k) k = s := by
  rw [encryptRound, decryptRound, subBytes_leftInverse_invSubBytes, shiftRows_leftInverse_invShiftRows,
    mixColumns_leftInverse_invMixColumns, addRoundKey_addRoundKey]

variable (rk : Vector Block Config.roundKeys)

/-- Decrypt step `10 - i` undoes encrypt step `i`: it takes the same round key (R76). -/
theorem decryptStep_encryptStep {i : Nat} (hi : i ≤ 10) (b : Block) :
    decryptStep rk (10 - i) (encryptStep rk i b) = b := by
  rcases (by omega : i = 0 ∨ i = 10 ∨ 0 < i ∧ i < 10) with rfl | rfl | ⟨hpos, hlt⟩
  · exact addRoundKey_addRoundKey b rk[0]
  · exact decryptInit_encryptFinal b rk[10]
  · rw [encryptStep, if_neg (by omega), if_neg (by omega), decryptStep, if_neg (by omega), if_neg (by omega),
      Nat.sub_sub_self hi]
    exact decryptRound_encryptRound b rk[i]!

/-- Encrypt step `10 - i` undoes decrypt step `i`. -/
theorem encryptStep_decryptStep {i : Nat} (hi : i ≤ 10) (b : Block) :
    encryptStep rk (10 - i) (decryptStep rk i b) = b := by
  rcases (by omega : i = 0 ∨ i = 10 ∨ 0 < i ∧ i < 10) with rfl | rfl | ⟨hpos, hlt⟩
  · exact encryptFinal_decryptInit b rk[10]
  · exact addRoundKey_addRoundKey b rk[0]
  · rw [encryptStep, if_neg (by omega), if_neg (by omega), decryptStep, if_neg (by omega), if_neg (by omega)]
    exact encryptRound_decryptRound b rk[10 - i]!

/-- Where step `10 - i` of `g` undoes step `i` of `f`, the steps of `g` retrace the eleven steps of `f` backwards. -/
theorem blockAfterSteps_mirror {f g : Nat → Block → Block} (h : ∀ i ≤ 10, ∀ b, g (10 - i) (f i b) = b) (b : Block) :
    ∀ n ≤ 11, blockAfterSteps g (blockAfterSteps f b 11) n = blockAfterSteps f b (11 - n) := by
  intro n
  induction n with
  | zero => intro _; rfl
  | succ n ih =>
    intro hn
    have hstep : 11 - n = (10 - n) + 1 := by omega
    have hback : 11 - (n + 1) = 10 - n := by omega
    have hidx : 10 - (10 - n) = n := by omega
    have hundo := h (10 - n) (by omega) (blockAfterSteps f b (10 - n))
    rw [hidx] at hundo
    rw [blockAfterSteps, ih (by omega), hstep, blockAfterSteps, hundo, hback]

/-- Settles O53: the eleven encrypt steps retrace the eleven decrypt steps, back to the block before them. -/
theorem encryptUndoesDecrypt : Obligations.EncryptUndoesDecrypt := by
  intro c k
  rw [decrypt_eq_blockAfterSteps, encrypt_eq_blockAfterSteps]
  exact blockAfterSteps_mirror (fun i hi b => encryptStep_decryptStep (expandKey k) hi b) c 11 (by omega)

/-! ## The round operations one after the other -/

/-- Operations run on from the next state that the first one answers. -/
theorem runOps_cons {i : Instr} {s t : State} (ops : List Instr) (h : exec i s = .next t) :
    runOps (i :: ops) s = runOps ops t := by
  rw [runOps, h]

/-- Operations run on from the next state that the ones before them answer. -/
theorem runOps_append {ops : List Instr} {s t : State} (h : runOps ops s = .next t) (more : List Instr) :
    runOps (ops ++ more) s = runOps more t := by
  induction ops generalizing s with
  | nil => cases h; rfl
  | cons i ops ih =>
    cases hi : exec i s with
    | next u =>
      rw [runOps_cons ops hi] at h
      rw [List.cons_append, runOps_cons _ hi, ih h]
    | fault f => rw [runOps, hi] at h; cases h
    | refused r => rw [runOps, hi] at h; cases h

/-- The operation that the RS vector `{m, i}` selects (R39). -/
def roundOp (m : Bit) (i : Nat) : Instr := (decodeRs (m ++ BitVec.ofNat 4 i)).getD .nop

/-- An RS vector with count 0..10 selects its operation. -/
theorem decodeRs_roundOp : ∀ (m : Bit), ∀ i < 11, decodeRs (m ++ BitVec.ofNat 4 i) = some (roundOp m i) := by decide

/-- The first `n` round operations of a mode leave the block after `n` steps in `s_r`. -/
theorem runOps_roundOps (m : Bit) (s : State) : ∀ n ≤ 11, ∃ t, runOps ((List.range n).map (roundOp m)) s = .next t ∧
    t.rk = s.rk ∧ t.sR = blockAfterSteps (roundBlock m s.rk) s.sR n := by
  intro n
  induction n with
  | zero => intro _; exact ⟨s, rfl, rfl, rfl⟩
  | succ n ih =>
    intro hn
    obtain ⟨t, ht, hrk, hsR⟩ := ih (by omega)
    obtain ⟨u, hu, hblock, hrk', -⟩ := exec_round (decodeRs_roundOp m n hn) t
    have hidx : (BitVec.ofNat 4 n).toNat = n := Nat.mod_eq_of_lt (by omega)
    refine ⟨u, ?_, hrk'.trans hrk, ?_⟩
    · rw [List.range_succ, List.map_append, runOps_append ht]
      exact runOps_cons [] hu
    · rw [hblock, hidx, hrk, hsR, blockAfterSteps]

/-- The working block after the first `n` round operations of a mode, run with the key store `rk` on a block. -/
theorem blockAfter_runOps_roundOps (m : Bit) {s : State} (hrk : s.rk = rk) (b : Block) {n : Nat} (hn : n ≤ 11) :
    blockAfter (runOps ((List.range n).map (roundOp m)) { s with sR := b }) =
      some (blockAfterSteps (roundBlock m rk) b n) := by
  obtain ⟨t, ht, -, hsR⟩ := runOps_roundOps m { s with sR := b } n hn
  rw [ht, ← hrk]
  exact congrArg some hsR

/-- The encrypt steps of R76 are the operations that the RS vectors select. -/
theorem encryptSteps_eq : ∀ j ≤ 9, encryptSteps j = (List.range (j + 1)).map (roundOp 0) := by decide

/-- The decrypt steps of R76 are the operations that the RS vectors select. -/
theorem decryptSteps_eq : ∀ j ≤ 9, decryptSteps j = (List.range (j + 1)).map (roundOp 1) := by decide

theorem encryptOps_eq : encryptOps = (List.range 11).map (roundOp 0) := rfl

theorem decryptOps_eq : decryptOps = (List.range 11).map (roundOp 1) := rfl

/-- Settles O54: the blocks after the round operations are the blocks after the steps of Encrypt and Decrypt, and the
decrypt steps retrace the encrypt steps. -/
theorem roundStepsComputeTheBlockFunctionsAndMirror : Obligations.RoundStepsComputeTheBlockFunctionsAndMirror := by
  intro s p k hrk
  have henc (b : Block) {n : Nat} (hn : n ≤ 11) := blockAfter_runOps_roundOps (expandKey k) 0 hrk b hn
  have hdec (b : Block) {n : Nat} (hn : n ≤ 11) := blockAfter_runOps_roundOps (expandKey k) 1 hrk b hn
  have hmirror := blockAfterSteps_mirror (fun i hi b => decryptStep_encryptStep (expandKey k) hi b) p
  rw [encrypt_eq_blockAfterSteps, decrypt_eq_blockAfterSteps]
  refine ⟨henc p le_rfl, hdec p le_rfl, fun j hj => ?mirror, ?back⟩
  case mirror =>
    have hsame : 9 - j + 1 = 11 - (j + 1) := by omega
    refine ⟨blockAfterSteps (encryptStep (expandKey k)) p (11 - (j + 1)), ?_, ?_⟩
    · rw [decryptSteps_eq j hj, ← hmirror (j + 1) (by omega)]
      exact hdec _ (by omega)
    · rw [encryptSteps_eq (9 - j) (by omega), hsame]
      exact henc p (by omega)
  case back => exact (hdec _ le_rfl).trans (congrArg some (hmirror 11 le_rfl))

end Sys2Proof.Machine
end

section
/-! The step invariants about the units and the key schedule (spec/30_encoding.md R37; spec/42_key_expand.md R65;
spec/44_core_control.md R82). -/

namespace Sys2Proof.Machine

/-! ## The units -/

/-- Units that answer their inputs do so after a step: a unit that the step drives is given its answer. -/
theorem unitsAnswer_of_stepCase {s u : State} (hs : s.unitsAnswer) (h : StepCase s (.next u)) : u.unitsAnswer := by
  obtain ⟨hsub, hshift, hmix, hadd, hkey⟩ := hs
  cases h with
  | reset => exact ⟨hsub, hshift, hmix, hadd, hkey⟩
  | idleNop => exact ⟨hsub, hshift, hmix, hadd, hkey⟩
  | accept => exact ⟨rfl, rfl, rfl, hadd, hkey⟩
  | key prev n _ _ _ _ hn =>
    simpa [State.unitsAnswer, hsub, hshift, hmix, hadd] using fun _ => hn.symm
  | round _ _ _ hc hu _ => exact (roundPhaseStep_block hc hu).2 ⟨hsub, hshift, hmix, hadd, hkey⟩

/-- Select inputs that carry `mode_r` do so after a step: an accept feeds them the mode that it writes (R37). -/
theorem selectsTied_of_stepCase {s u : State} (hs : s.selectsTied) (h : StepCase s (.next u)) : u.selectsTied := by
  obtain ⟨hsub, hshift, hmix⟩ := hs
  cases h with
  | reset => exact ⟨hsub, hshift, hmix⟩
  | idleNop => exact ⟨hsub, hshift, hmix⟩
  | accept => exact ⟨rfl, rfl, rfl⟩
  | key => simp [State.selectsTied, State.selectsAt, hsub, hshift, hmix]
  | round _ _ _ _ _ hw => rw [State.selectsTied, hw.modeR]; exact hw.selects

/-- Settles O48: the two invariants of a step, neither of which sees what the host presents next. -/
theorem everyStepKeepsTheUnitsAnswering : Obligations.EveryStepKeepsTheUnitsAnswering := by
  refine ⟨fun s t hs ht => ?answer, fun s t hs ht => ?selects⟩
  all_goals
    obtain ⟨u, hu, rfl⟩ := step_eq_next.1 ht
    have hc := stepCase s
    rw [hu] at hc
  case answer => simpa [State.unitsAnswer] using unitsAnswer_of_stepCase hs hc
  case selects => simpa [State.selectsTied, State.selectsAt] using selectsTied_of_stepCase hs hc

/-! ## The key schedule -/

/-- The key store after a key step, entry by entry (R82). -/
theorem getElem_keyStep (s : State) {i : BitVec 4} (hi : keyIndexOk i = true) (prev n : Block) {j : Nat}
    (hj : j < Config.roundKeys) :
    (((s.driveKeyExpand prev i n).writeRk i n).advanceKey i).rk[j] = if i.toNat = j then n else s.rk[j] := by
  apply eq_getElem_of_getElem? hj
  rw [getElem?_keyStep s hi, Vector.getElem?_eq_getElem hj, apply_ite some]

/-- A key step with an index below 10 leaves a count that does not wrap. -/
theorem toNat_succ_of_keyIndexOk : ∀ {i : BitVec 4}, keyIndexOk i = true → i ≠ 10 → (i + 1).toNat = i.toNat + 1 := by
  decide

/-- Key step `i` in phase KEXP leaves entries `0 .. i` written. -/
theorem keysWritten_keyStep {s : State} (hp : s.phase = .kexp) {i : BitVec 4} (hi : keyIndexOk i = true)
    (prev n : Block) :
    (((s.driveKeyExpand prev i n).writeRk i n).advanceKey i).keysWritten = i.toNat + 1 := by
  by_cases h10 : i = 10#4
  · simp [State.keysWritten, h10]
  · simpa [State.keysWritten, h10, hp] using toNat_succ_of_keyIndexOk hi h10

/-- A KX index as a number. -/
theorem toNat_bounds_of_keyIndexOk : ∀ {i : BitVec 4}, keyIndexOk i = true → 1 ≤ i.toNat ∧ i.toNat ≤ 10 := by decide

/-- The key step with index `i` on entry `i - 1` of a schedule gives its entry `i` (R65). -/
theorem keyStep_expandKey_index (k : Block) {i : BitVec 4} (hi : keyIndexOk i = true)
    (hpred : i.toNat - 1 < Config.roundKeys) (hlt : i.toNat < Config.roundKeys) :
    keyStep (expandKey k)[i.toNat - 1] i = some (expandKey k)[i.toNat] := by
  have hsucc : i.toNat - 1 + 1 = i.toNat := Nat.sub_add_cancel (toNat_bounds_of_keyIndexOk hi).1
  have hchain := keyStep_expandKey k (i := i.toNat - 1) (hsucc.symm ▸ hlt)
  simpa [hsucc] using hchain

/-- While the entries before it are the running key's schedule, a key step answers the schedule's next entry. -/
theorem keyStep_of_scheduleHeld {s : State} (hs : s.scheduleHeld) (hp : s.phase = .kexp) (hk : keyIndexOk s.cnt = true)
    {prev n : Block} (hr : s.readRk (s.cnt - 1) = some prev) (hn : keyStep prev s.cnt = some n)
    (hlt : s.cnt.toNat < Config.roundKeys) : n = (expandKey s.rk[0])[s.cnt.toNat] := by
  have hpos := (toNat_bounds_of_keyIndexOk hk).1
  have hpred : s.cnt.toNat - 1 < Config.roundKeys := by omega
  have hwritten : s.keysWritten = s.cnt.toNat := by simp [State.keysWritten, hp]
  have hentry : s.rk[s.cnt.toNat - 1] = (expandKey s.rk[0])[s.cnt.toNat - 1] :=
    hs ⟨s.cnt.toNat - 1, hpred⟩ (lt_of_lt_of_eq (Nat.sub_one_lt_of_lt hpos) hwritten.symm)
  rw [State.readRk, toNat_pred_of_keyIndexOk hk] at hr
  have hprev : prev = (expandKey s.rk[0])[s.cnt.toNat - 1] := (eq_getElem_of_getElem? hpred hr).symm.trans hentry
  rw [hprev, keyStep_expandKey_index s.rk[0] hk hpred hlt] at hn
  exact (Option.some.inj hn).symm

/-- A key step of the running operation writes the next entry of its schedule, and leaves the entries before it. -/
theorem scheduleHeld_keyStep {s : State} (hs : s.scheduleHeld) (hp : s.phase = .kexp) (hk : keyIndexOk s.cnt = true)
    {prev n : Block} (hr : s.readRk (s.cnt - 1) = some prev) (hn : keyStep prev s.cnt = some n) :
    (((s.driveKeyExpand prev s.cnt n).writeRk s.cnt n).advanceKey s.cnt).scheduleHeld := by
  have hnext := keyStep_of_scheduleHeld hs hp hk hr hn (toNat_lt_of_keyIndexOk hk)
  have hpos : s.cnt.toNat ≠ 0 := Nat.ne_of_gt (toNat_bounds_of_keyIndexOk hk).1
  have hwritten : s.keysWritten = s.cnt.toNat := by simp [State.keysWritten, hp]
  intro j hj
  rw [keysWritten_keyStep hp hk] at hj
  rw [Fin.getElem_fin, Fin.getElem_fin, getElem_keyStep s hk prev n j.isLt, getElem_keyStep s hk prev n (by decide),
    if_neg hpos]
  split
  · next h => simpa [h] using hnext
  · next h => exact hs j (by omega)

/-- What an operation has written is its key's schedule after every step: an accept writes entry 0, a key step the next
entry, a round step none, and reset and completion leave no operation running. -/
theorem scheduleHeld_of_stepCase {s u : State} (hs : s.scheduleHeld) (h : StepCase s (.next u)) : u.scheduleHeld := by
  cases h with
  | reset => exact fun j hj => absurd hj (Nat.not_lt_zero _)
  | idleNop => exact hs
  | accept =>
    intro j hj
    obtain rfl : j = 0 := Fin.ext (Nat.lt_one_iff.1 hj)
    rfl
  | key prev n _ hp hk hr hn => exact scheduleHeld_keyStep hs hp hk hr hn
  | round _ _ hp _ _ hw =>
    by_cases h10 : s.cnt = 10
    · have hnone : u.keysWritten = 0 := by rw [State.keysWritten, (hw.last h10).1]
      exact fun j hj => absurd hj (by rw [hnone]; exact Nat.not_lt_zero _)
    · have hsame : u.keysWritten = s.keysWritten := by rw [State.keysWritten, (hw.middle h10).1, hp, State.keysWritten, hp]
      rw [State.scheduleHeld, hsame, hw.rk]
      exact hs

/-- Settles O49: the invariant of the core's part of a step, which does not see what the host presents next. -/
theorem everyStepKeepsTheScheduleOfTheRunningKey : Obligations.EveryStepKeepsTheScheduleOfTheRunningKey := by
  intro s t _ hs ht
  obtain ⟨u, hu, rfl⟩ := step_eq_next.1 ht
  have hc := stepCase s
  rw [hu] at hc
  simpa [State.scheduleHeld, State.keysWritten] using scheduleHeld_of_stepCase hs hc

end Sys2Proof.Machine
end

section
/-! Runs (spec/44_core_control.md section 4; spec/70_reset_and_hazards.md sections 3 and 4): an operation from its accept to its
result, what a run of the control and an idle run do, and the host's pseudo-instructions. An operation is followed by one
invariant, `State.Running`, in which the position of the sequencer counts the steps since the accept. -/

namespace Sys2Proof.Machine

/-! ## Runs in two parts -/

/-- A run goes on from where its first part ends. -/
theorem runSteps_add {m : Nat} {s t : State} (h : runSteps m s = .next t) (n : Nat) :
    runSteps (m + n) s = runSteps n t := by
  induction m generalizing s with
  | zero => cases h; rw [Nat.zero_add]
  | succ m ih =>
    cases hs : step s with
    | next u =>
      rw [runSteps_succ m hs] at h
      rw [Nat.add_right_comm, runSteps_succ _ hs, ih h]
    | fault f => rw [runSteps_fault m hs] at h; cases h
    | refused r => exact absurd hs (step_ne_refused s r)

/-! ## The position of the sequencer -/

/-- The number of a busy control state on the fixed path: 1 to 10 in KEXP, 11 to 21 in RND (R86). -/
def positionOf : Phase → BitVec 4 → Nat
  | .kexp, cnt => cnt.toNat
  | .rnd, cnt => 11 + cnt.toNat
  | .idle, _ | .reserved, _ => 0

/-- The position of the sequencer: the steps since the accept (R105). -/
def State.position (s : State) : Nat := positionOf s.phase s.cnt

theorem position_kexp {s : State} (hp : s.phase = .kexp) : s.position = s.cnt.toNat := by
  rw [State.position, hp, positionOf]

theorem position_rnd {s : State} (hp : s.phase = .rnd) : s.position = 11 + s.cnt.toNat := by
  rw [State.position, hp, positionOf]

/-- In a legal busy core the phase is KEXP with a KX index or RND with a count 0..10. -/
theorem legal_busy_cases {s : State} (hl : s.legal) (hb : s.phase ≠ .idle) :
    (s.phase = .kexp ∧ keyIndexOk s.cnt = true) ∨ (s.phase = .rnd ∧ s.cnt ≤ 10) := by
  unfold State.legal at hl
  cases hp : s.phase with
  | idle => exact absurd hp hb
  | kexp => rw [hp] at hl; exact .inl ⟨rfl, hl⟩
  | rnd => rw [hp] at hl; exact .inr ⟨rfl, of_decide_eq_true hl⟩
  | reserved => rw [hp] at hl; cases hl

/-- The positions of a legal busy core. -/
theorem position_bounds {s : State} (hl : s.legal) (hb : s.phase ≠ .idle) : 1 ≤ s.position ∧ s.position ≤ 21 := by
  rcases legal_busy_cases hl hb with ⟨hp, hk⟩ | ⟨hp, hc⟩
  · have := toNat_bounds_of_keyIndexOk hk
    rw [position_kexp hp]
    omega
  · have hc' : s.cnt.toNat ≤ 10 := hc
    rw [position_rnd hp]
    omega

/-- From KEXP the fixed path goes one position on. -/
theorem positionOf_nextPosition_kexp : ∀ (start : Bit) (cnt : BitVec 4), keyIndexOk cnt = true →
    (nextPosition start .kexp cnt).1 ≠ .idle ∧
    positionOf (nextPosition start .kexp cnt).1 (nextPosition start .kexp cnt).2 = cnt.toNat + 1 := by decide

/-- From RND before its last count the fixed path goes one position on. -/
theorem positionOf_nextPosition_rnd : ∀ (start : Bit) (cnt : BitVec 4), cnt ≤ 10 → cnt ≠ 10 → cnt.toNat < 10 ∧
    (nextPosition start .rnd cnt).1 ≠ .idle ∧
    positionOf (nextPosition start .rnd cnt).1 (nextPosition start .rnd cnt).2 = 11 + cnt.toNat + 1 := by decide

/-- A step of a busy core without reset: at position 21 it completes, before that it moves one position on (R86). -/
theorem step_busy {s : State} (hl : s.legal) (hb : s.phase ≠ .idle) (hr : s.inputs.rst = 0) :
    ∃ t, step s = .next t ∧
      ((s.position = 21 ∧ t.phase = .idle ∧ t.doneR = 1) ∨
       (s.position < 21 ∧ t.phase ≠ .idle ∧ t.legal ∧ t.doneR = s.doneR ∧ t.position = s.position + 1)) := by
  obtain ⟨t, ht, hpath, hdone⟩ := step_legal hl hr
  have hlegal : t.legal := (everyStepKeepsTheControlLegal s hl).2 t ht
  obtain ⟨hphase, hcnt⟩ := Prod.mk.inj hpath
  refine ⟨t, ht, ?_⟩
  rcases legal_busy_cases hl hb with ⟨hp, hk⟩ | ⟨hp, hc⟩
  · obtain ⟨hbusy, hnext⟩ := positionOf_nextPosition_kexp s.inputs.start s.cnt hk
    have hlt := (toNat_bounds_of_keyIndexOk hk).2
    rw [hp] at hphase hcnt
    rw [position_kexp hp, State.position, hphase, hcnt]
    exact .inr ⟨by omega, hbusy, hlegal, by simpa [nextDone, hp] using hdone, hnext⟩
  · by_cases h10 : s.cnt = 10#4
    · rw [hp, h10] at hphase
      rw [position_rnd hp, h10]
      exact .inl ⟨rfl, hphase, by simpa [nextDone, hp, h10] using hdone⟩
    · obtain ⟨hlt, hbusy, hnext⟩ := positionOf_nextPosition_rnd s.inputs.start s.cnt hc h10
      rw [hp] at hphase hcnt
      rw [position_rnd hp, State.position, hphase, hcnt]
      exact .inr ⟨by omega, hbusy, hlegal, by simpa [nextDone, hp, h10] using hdone, hnext⟩

/-! ## A running operation -/

/-- An operation with mode `m`, key `k` and block `d` is running: the key store holds what it has written of its schedule,
and `s_r` the block after the round steps it has run. -/
structure State.Running (m : Bit) (k d : Block) (s : State) : Prop where
  busy : s.phase ≠ .idle
  legal : s.legal
  doneR : s.doneR = 0
  modeR : s.modeR = m
  key : s.rk[0] = k
  schedule : s.scheduleHeld
  block : s.sR = blockAfterSteps (roundBlock m (expandKey k)) d (s.position - 11)

/-- What a step of a busy core does to the registers of its operation: entry 0 and the mode stay, and a round step works on
the block. -/
theorem step_busy_registers {s t : State} (hr : s.inputs.rst = 0) (hb : s.phase ≠ .idle) (ht : step s = .next t) :
    t.modeR = s.modeR ∧ t.rk[0] = s.rk[0] ∧
      t.sR = if s.phase = .rnd then roundBlock s.modeR s.rk s.cnt.toNat s.sR else s.sR := by
  obtain ⟨u, hu, rfl⟩ := step_eq_next.1 ht
  have hc := stepCase s
  rw [hu] at hc
  simp only [State.presentNext_modeR, State.presentNext_rk, State.presentNext_sR]
  cases hc with
  | reset hr' => rw [hr'] at hr; cases hr
  | idleNop _ hp => exact absurd hp hb
  | accept _ hp => exact absurd hp hb
  | key prev n _ hp hk =>
    have hpos := (toNat_bounds_of_keyIndexOk hk).1
    refine ⟨by simp, ?_, by simp [hp]⟩
    rw [getElem_keyStep s hk prev n (by decide), if_neg (by omega)]
  | round _ _ hp hc hu hw =>
    refine ⟨hw.modeR, by simp only [hw.rk], ?_⟩
    rw [if_pos hp]
    exact (roundPhaseStep_block hc hu).1

variable {m : Bit} {k d : Block} {s t : State}

/-- In phase RND the key store holds the whole schedule. -/
theorem State.Running.rk_eq (h : s.Running m k d) (hp : s.phase = .rnd) : s.rk = expandKey k := by
  refine Vector.ext fun j hj => ?_
  have hwritten : j < s.keysWritten := by rwa [State.keysWritten, hp]
  have hentry := h.schedule ⟨j, hj⟩ hwritten
  rw [h.key] at hentry
  exact hentry

/-- The block after a step of a running operation. -/
theorem State.Running.step_block (h : s.Running m k d) (hr : s.inputs.rst = 0) (ht : step s = .next t) :
    t.sR = blockAfterSteps (roundBlock m (expandKey k)) d (s.position + 1 - 11) := by
  rw [(step_busy_registers hr h.busy ht).2.2]
  have hblock := h.block
  rcases legal_busy_cases h.legal h.busy with ⟨hp, hk⟩ | ⟨hp, -⟩
  · have hbefore : s.position - 11 = s.position + 1 - 11 := by
      have := toNat_bounds_of_keyIndexOk hk
      rw [position_kexp hp]
      omega
    rw [if_neg (by simp [hp]), hblock, hbefore]
  · have hround : s.position - 11 = s.cnt.toNat := by rw [position_rnd hp]; omega
    have hnext : s.position + 1 - 11 = s.cnt.toNat + 1 := by rw [position_rnd hp]; omega
    rw [if_pos hp, h.modeR, h.rk_eq hp, hblock, hround, hnext, blockAfterSteps]

/-- A step of a running operation without reset completes it at position 21, and else leaves it running one position on. -/
theorem State.Running.step (h : s.Running m k d) (hr : s.inputs.rst = 0) :
    ∃ t, Machine.step s = .next t ∧
      ((s.position = 21 ∧ t.phase = .idle ∧ t.doneR = 1 ∧
          t.sR = blockAfterSteps (roundBlock m (expandKey k)) d 11) ∨
       (s.position < 21 ∧ t.Running m k d ∧ t.position = s.position + 1)) := by
  obtain ⟨t, ht, hcases⟩ := step_busy h.legal h.busy hr
  obtain ⟨hmode, hkey, -⟩ := step_busy_registers hr h.busy ht
  have hblock := h.step_block hr ht
  refine ⟨t, ht, ?_⟩
  rcases hcases with ⟨h21, hp, hd⟩ | ⟨hlt, hbusy, hlegal, hdone, hpos⟩
  · rw [h21] at hblock
    exact .inl ⟨h21, hp, hd, hblock⟩
  · refine .inr ⟨hlt, ?_, hpos⟩
    exact
      { busy := hbusy
        legal := hlegal
        doneR := hdone.trans h.doneR
        modeR := hmode.trans h.modeR
        key := hkey.trans h.key
        schedule := everyStepKeepsTheScheduleOfTheRunningKey s t h.legal h.schedule ht
        block := by rw [hpos]; exact hblock }

/-- The step that accepts a command starts its operation at position 1 (R79, R80). -/
theorem step_accept (hp : s.phase = .idle) (hc : s.cnt = 0) (hr : s.inputs.rst = 0) (hs : s.inputs.start = 1) :
    ∃ t, step s = .next t ∧ t.Running s.inputs.mode s.inputs.keyIn s.inputs.din ∧ t.position = 1 := by
  have hexec : exec s.fetch s = .next (s.accept s.inputs.mode s.inputs.keyIn s.inputs.din) := by
    rw [exec_fetch_command hr, hs, commandStep_idle _ hp hc]
    rfl
  have ht : step s = .next _ := step_eq_next.2 ⟨_, hexec, rfl⟩
  have hl : s.legal := legal_of_idle hp hc
  have hnone : s.keysWritten = 0 := by rw [State.keysWritten, hp]
  have hheld : s.scheduleHeld := fun j hj => absurd hj (by rw [hnone]; exact Nat.not_lt_zero _)
  have hpos : (s.accept s.inputs.mode s.inputs.keyIn s.inputs.din).presentNext.position = 1 := by
    simp [State.position, positionOf]
  refine ⟨_, ht, ?_, hpos⟩
  exact
    { busy := by simp
      legal := (everyStepKeepsTheControlLegal s hl).2 _ ht
      doneR := by simp
      modeR := by simp
      key := by simp
      schedule := everyStepKeepsTheScheduleOfTheRunningKey s _ hl hheld ht
      block := by rw [hpos]; simp [blockAfterSteps] }

/-- A running operation runs on while the host does not reset, up to position 21. -/
theorem State.Running.run (n : Nat) (h : s.Running m k d) (hpos : s.position + n ≤ 21) (hr : s.inputs.rst = 0)
    (hlen : n ≤ s.script.length) (hscript : noReset (s.script.take n)) :
    ∃ t, runSteps n s = .next t ∧ t.Running m k d ∧ t.position = s.position + n ∧ t.inputs.rst = 0 := by
  induction n generalizing s with
  | zero => exact ⟨s, rfl, h, rfl, hr⟩
  | succ n ih =>
    obtain ⟨t, ht, ⟨h21, -⟩ | ⟨-, hrun, hnext⟩⟩ := h.step hr
    · omega
    · cases hs : s.script with
      | nil => rw [hs] at hlen; cases hlen
      | cons i rest =>
        rw [hs, List.length_cons] at hlen
        rw [hs, List.take_succ_cons] at hscript
        obtain ⟨hi, hrest⟩ := List.forall_mem_cons.1 hscript
        obtain ⟨hin, hsc⟩ := step_presents_script ht hs
        obtain ⟨u, hu, hurun, hupos, hur⟩ :=
          ih hrun (by omega) (by rw [hin]; exact hi) (by rw [hsc]; omega) (by rw [hsc]; exact hrest)
        exact ⟨u, (runSteps_succ n ht).trans hu, hurun, by omega, hur⟩

/-- The eleven round steps of a mode are its block function (R67, R68). -/
theorem blockAfterSteps_roundBlock (m : Bit) (k d : Block) :
    blockAfterSteps (roundBlock m (expandKey k)) d 11 = if m = 0 then encrypt d k else decrypt d k := by
  rw [encrypt_eq_blockAfterSteps, decrypt_eq_blockAfterSteps, roundBlock]
  split <;> rfl

/-! ## The transaction contract -/

/-- An idle core presented with a command is running it after 1 to 21 steps without reset, at the position of that number. -/
theorem run_command (hp : s.phase = .idle) (hc : s.cnt = 0) (hr : s.inputs.rst = 0) (hs : s.inputs.start = 1)
    (hlen : 21 ≤ s.script.length) (hscript : noReset (s.script.take 21)) {n : Nat} (hn : n ≤ 20) :
    ∃ t, runSteps (n + 1) s = .next t ∧ t.Running s.inputs.mode s.inputs.keyIn s.inputs.din ∧ t.position = n + 1 ∧
      t.inputs.rst = 0 := by
  obtain ⟨t, ht, hrun, hpos⟩ := step_accept hp hc hr hs
  cases hscr : s.script with
  | nil => rw [hscr] at hlen; cases hlen
  | cons i rest =>
    rw [hscr, List.length_cons] at hlen
    rw [hscr, List.take_succ_cons] at hscript
    obtain ⟨hi, hrest⟩ := List.forall_mem_cons.1 hscript
    obtain ⟨hin, hsc⟩ := step_presents_script ht hscr
    have htake : noReset (t.script.take n) := fun j hj =>
      hrest j (List.take_subset_take_left rest hn (hsc ▸ hj))
    obtain ⟨u, hu, hurun, hupos, hur⟩ :=
      hrun.run n (by omega) (by rw [hin]; exact hi) (by rw [hsc]; omega) htake
    exact ⟨u, (runSteps_succ n ht).trans hu, hurun, by omega, hur⟩

/-- Settles O51: position 21 is reached after 21 steps, and the step from there completes with the block function. -/
theorem anAcceptedCommandIsAnsweredAfter22Steps : Obligations.AnAcceptedCommandIsAnsweredAfter22Steps := by
  intro s m k d hp hc hin hlen hscript
  have hr : s.inputs.rst = 0 := by rw [hin]
  have hs : s.inputs.start = 1 := by rw [hin]
  have hrun {n : Nat} (hn : n ≤ 20) := run_command hp hc hr hs hlen hscript hn
  simp only [hin] at hrun
  refine ⟨?result, fun n h1 h21 => ?running⟩
  case result =>
    obtain ⟨u, hu, hurun, hupos, hur⟩ := hrun le_rfl
    obtain ⟨t, ht, ⟨-, hidle, hdone, hblock⟩ | ⟨hlt, -⟩⟩ := hurun.step hur
    · refine ⟨t, (runSteps_add hu 1).trans (runSteps_succ 0 ht), by simp [State.busy, hidle], hdone, ?_⟩
      rw [State.dout, if_pos hdone, hblock, blockAfterSteps_roundBlock]
    · omega
  case running =>
    obtain ⟨j, rfl⟩ := Nat.exists_eq_add_of_le' h1
    obtain ⟨u, hu, hurun, -, -⟩ := hrun (n := j) (by omega)
    exact ⟨u, hu, (busy_eq_one_iff u).2 hurun.busy, hurun.doneR⟩

/-- The host's inputs that present a command, by their operands. -/
theorem inputs_eq_command {i : HostInputs} (hr : i.rst = 0) (hs : i.start = 1) :
    i = { rst := 0, start := 1, mode := i.mode, keyIn := i.keyIn, din := i.din } := by
  rw [← hr, ← hs]

/-- Settles O55: by the transaction contract both results are the same function of the operands that both sampled. -/
theorem theResultDependsOnTheSampledOperandsOnly : Obligations.TheResultDependsOnTheSampledOperandsOnly := by
  intro s u hsp hsc hup huc hsame hr hs hslen hsscript hulen huscript
  have hcommand := inputs_eq_command hr hs
  obtain ⟨⟨t, ht, -, htdone, htdout⟩, -⟩ :=
    anAcceptedCommandIsAnsweredAfter22Steps s _ _ _ hsp hsc hcommand hslen hsscript
  obtain ⟨⟨v, hv, -, hvdone, hvdout⟩, -⟩ :=
    anAcceptedCommandIsAnsweredAfter22Steps u _ _ _ hup huc (hsame.symm.trans hcommand) hulen huscript
  exact ⟨t, v, ht, hv, htdone, hvdone, htdout.trans hvdout.symm, by simp [htdout]⟩

/-! ## Pseudo-instructions -/

/-- A command and 21 NOPs on an idle core end with the result on `dout` (R43). -/
theorem run_load_command (hp : s.phase = .idle) (hc : s.cnt = 0) (x : Block × Block) {i : HostInputs} (hr : i.rst = 0)
    (hs : i.start = 1) :
    ∃ t, runSteps 22 (s.load (i :: List.replicate 21 (nopInputs x))) = .next t ∧
      t.checks 0 1 (some (if i.mode = 0 then encrypt i.din i.keyIn else decrypt i.din i.keyIn)) = true := by
  have hquiet : noReset ((List.replicate 21 (nopInputs x)).take 21) := fun j hj => by
    rw [List.eq_of_mem_replicate (List.mem_of_mem_take hj)]
    rfl
  obtain ⟨⟨t, ht, hbusy, hdone, hdout⟩, -⟩ := anAcceptedCommandIsAnsweredAfter22Steps
    (s.load (i :: List.replicate 21 (nopInputs x))) i.mode i.keyIn i.din hp hc (inputs_eq_command hr hs) le_rfl hquiet
  exact ⟨t, ht, by simp [State.checks, hbusy, hdone, hdout]⟩

/-- Settles O58: each line expands to its command and 21 NOPs. -/
theorem encryptAndDecryptPseudoInstructionsDeliver : Obligations.EncryptAndDecryptPseudoInstructionsDeliver :=
  fun _ x key data hp hc =>
    ⟨run_load_command hp hc x (i := encInputs key data) rfl rfl, run_load_command hp hc x (i := decInputs key data) rfl rfl⟩

/-- WAITDONE takes no step in a state with `done = 1` (R43). -/
theorem waitDone_of_done (x : Block × Block) (n : Nat) (h : s.done = 1) : waitDone x n s = .next s := by
  cases n with
  | zero => rfl
  | succ n => rw [waitDone, if_pos h]

/-- WAITDONE ends with `done = 1` in a busy legal core, given the NOPs that are left to position 21 and the last one. -/
theorem waitDone_of_busy (x : Block × Block) (n : Nat) (hl : s.legal) (hb : s.phase ≠ .idle) (hn : 22 ≤ s.position + n) :
    ∃ t, waitDone x n s = .next t ∧ t.done = 1 := by
  induction n generalizing s with
  | zero =>
    have := (position_bounds hl hb).2
    omega
  | succ n ih =>
    by_cases hdone : s.done = 1
    · exact ⟨s, waitDone_of_done x (n + 1) hdone, hdone⟩
    · obtain ⟨t, ht, hcases⟩ := step_busy (s := s.load [nopInputs x]) hl hb rfl
      have hwait : waitDone x (n + 1) s = waitDone x n t := by rw [waitDone, if_neg hdone, ht]
      rw [hwait]
      rcases hcases with ⟨-, -, hd⟩ | ⟨-, hbusy, hlegal, -, hpos⟩
      · exact ⟨t, waitDone_of_done x n hd, hd⟩
      · have hsame : (s.load [nopInputs x]).position = s.position := rfl
        exact ih hlegal hbusy (by omega)

/-- Settles O59: a busy legal core is at position 1 at least, so 21 NOPs lead past position 21. -/
theorem waitDoneEndsAtTheCompletion : Obligations.WaitDoneEndsAtTheCompletion := by
  refine ⟨fun s x n h => waitDone_of_done x n h, fun s x hl hb => ?busy⟩
  case busy =>
    have hidle := (busy_eq_one_iff s).1 hb
    have := (position_bounds hl hidle).1
    exact waitDone_of_busy x 21 hl hidle (by omega)

/-! ## An idle core -/

/-- What the host presents next is in no register. -/
theorem registersKept_presentNext (s : State) : registersKept s s.presentNext := by
  simp [registersKept]

/-- A NOP step of an idle core changes nothing but what the host presents (R78). -/
theorem step_idle_nop (hp : s.phase = .idle) (hc : s.cnt = 0) (hr : s.inputs.rst = 0) (hs : s.inputs.start = 0) :
    step s = .next s.presentNext := by
  refine step_eq_next.2 ⟨s, ?_, rfl⟩
  rw [fetch_eq_nop hr hs]
  exact commandStep_idle s hp hc

/-- The outputs are functions of the registers (R10). -/
theorem outputs_of_registersKept (h : registersKept s t) : t.busy = s.busy ∧ t.done = s.done ∧ t.dout = s.dout := by
  obtain ⟨hp, -, -, hsR, -, hd⟩ := h
  exact ⟨by rw [State.busy, hp, State.busy], hd, by rw [State.dout, hd, hsR, State.dout]⟩

/-- An idle core keeps its registers while the host presents NOPs. -/
theorem run_idle (n : Nat) (hp : s.phase = .idle) (hc : s.cnt = 0) (hr : s.inputs.rst = 0) (hs : s.inputs.start = 0)
    (hscript : ∀ i ∈ s.script.take (n - 1), i.rst = 0 ∧ i.start = 0) (hlen : n ≤ s.script.length + 1) :
    ∃ t, runSteps n s = .next t ∧ registersKept s t := by
  induction n generalizing s with
  | zero => exact ⟨s, rfl, rfl, rfl, rfl, rfl, rfl, rfl⟩
  | succ n ih =>
    have hstep := step_idle_nop hp hc hr hs
    rw [runSteps_succ n hstep]
    cases n with
    | zero => exact ⟨_, rfl, registersKept_presentNext s⟩
    | succ n =>
      cases hscr : s.script with
      | nil => rw [hscr] at hlen; simp at hlen
      | cons i rest =>
        rw [hscr, List.length_cons] at hlen
        rw [hscr, Nat.add_sub_cancel, List.take_succ_cons] at hscript
        obtain ⟨⟨hir, his⟩, hrest⟩ := List.forall_mem_cons.1 hscript
        rw [s.presentNext_cons i rest hscr]
        exact ih (s := { s with inputs := i, script := rest }) hp hc hir his hrest (by simpa using hlen)

/-- Settles O57: the registers are kept, and the outputs are functions of them. -/
theorem anIdleCoreHoldsItsResult : Obligations.AnIdleCoreHoldsItsResult := by
  intro n s hp hc hr hs hscript hlen
  obtain ⟨t, ht, hkept⟩ := run_idle n hp hc hr hs hscript hlen
  exact ⟨t, ht, hkept, outputs_of_registersKept hkept⟩

/-! ## The timing of the control -/

/-- Two states on whose control and `rst` and `start` the control function agrees step alike: both to the same control, or
neither to any. -/
theorem step_sameControl {u : State} (h : s.nextControl = u.nextControl) :
    (∃ t v, step s = .next t ∧ step u = .next v ∧ t.phase = v.phase ∧ t.cnt = v.cnt ∧ t.doneR = v.doneR) ∨
    (∃ f g, step s = .fault f ∧ step u = .fault g) := by
  cases hs : step s with
  | next t =>
    obtain ⟨v, hv, hp, hc, hd⟩ := step_next_of_nextControl (h.symm.trans (nextControl_of_step hs))
    exact .inl ⟨t, v, rfl, hv, hp.symm, hc.symm, hd.symm⟩
  | fault f =>
    cases hu : step u with
    | next v =>
      obtain ⟨t, ht, -⟩ := step_next_of_nextControl (h.trans (nextControl_of_step hu))
      cases hs.symm.trans ht
    | fault g => exact .inr ⟨f, g, rfl, rfl⟩
    | refused r => exact absurd hu (step_ne_refused u r)
  | refused r => exact absurd hs (step_ne_refused s r)

/-- What the host drives at `rst` and `start` in each step of its script. -/
def State.scriptTiming (s : State) : List (Bit × Bit) := s.script.map fun i => (i.rst, i.start)

/-- Two scripts that agree on `rst` and `start` present inputs that agree on them, and go on to do so. -/
theorem step_scriptTiming {u v : State} (ht : step s = .next t) (hv : step u = .next v)
    (h : s.scriptTiming = u.scriptTiming) (hlen : s.script.length ≠ 0) :
    t.inputs.rst = v.inputs.rst ∧ t.inputs.start = v.inputs.start ∧ t.scriptTiming = v.scriptTiming ∧
      s.script.length = t.script.length + 1 := by
  unfold State.scriptTiming at h ⊢
  cases hs : s.script with
  | nil => rw [hs] at hlen; exact absurd rfl hlen
  | cons i is =>
    cases hu : u.script with
    | nil => rw [hs, hu] at h; cases h
    | cons j js =>
      rw [hs, hu, List.map_cons, List.map_cons, List.cons.injEq, Prod.mk.injEq] at h
      obtain ⟨⟨hrst, hstart⟩, hrest⟩ := h
      obtain ⟨hti, hts⟩ := step_presents_script ht hs
      obtain ⟨hvi, hvs⟩ := step_presents_script hv hu
      rw [hti, hvi, hts, hvs]
      exact ⟨hrst, hstart, hrest, rfl⟩

/-- Settles O56, step by step: the control function reads the control, `rst` and `start`, on which the two runs agree. -/
theorem controlTimingIsIndependentOfKeysAndData : Obligations.ControlTimingIsIndependentOfKeysAndData := by
  intro n
  induction n with
  | zero =>
    intro s u hp hc hd _ _ _ _
    simp [controlOf, hp, hc, hd]
  | succ n ih =>
    intro s u hp hc hd hr hst hscript hlen
    have hcontrol : s.nextControl = u.nextControl := by
      rw [State.nextControl, hp, hc, hd, hr, hst, State.nextControl]
    rcases step_sameControl hcontrol with ⟨t, v, ht, hv, hp', hc', hd'⟩ | ⟨f, g, hf, hg⟩
    · rw [runSteps_succ n ht, runSteps_succ n hv]
      cases n with
      | zero => simp [controlOf, hp', hc', hd']
      | succ n =>
        obtain ⟨hr', hst', hscript', hlen'⟩ := step_scriptTiming ht hv hscript (by omega)
        exact ih t v hp' hc' hd' hr' hst' hscript' (by omega)
    · rw [runSteps_fault n hf, runSteps_fault n hg]
      rfl

end Sys2Proof.Machine
end
